-- ==== Sys2Proof/Word.lean ====
section
/-! DEFINITION. The word types of the core and nothing else (`00_scope.md` R9, R11). -/

namespace Sys2Proof

/-- A byte: the width of a general register, of SREG and of a memory cell (R9: XLEN, FLAGS_W, byte). -/
abbrev Byte := BitVec 8

/-- A 16-bit word: an opcode (R9: ILEN), the program counter (PC_W) and the stack pointer (SP_W). -/
abbrev Word := BitVec 16

/-- The number of a general register, 0 to 31 (`10_state.md` R20). -/
abbrev Reg := Fin 32

/-- The 12-bit two's-complement word offset of RJMP and RCALL (`30_encoding.md` R84). -/
abbrev Offset := BitVec 12

/-- The number of a bit of SREG, 0 to 7, the operand of BSET and BCLR (`30_encoding.md` R92). -/
abbrev FlagIndex := BitVec 3

end Sys2Proof
end

