-- ==== Sys2Proof/Config.lean ====
section
/-! DEFINITION. The implementation parameters of `00_scope.md` R9, as plain data, and the names of the recognised
instructions that the parameter EXECUTABLE is a set of. -/

namespace Sys2Proof

/-- The nineteen names of `30_encoding.md` R86, in the order of that table. -/
inductive Mnemonic where
  | nop | add | sub | and | eor | or | com | inc | asr | lsr | ror | dec | bset | bclr | ret | reti | rjmp | rcall | ldi
  deriving DecidableEq, Repr

/-- Tier 1: the ten instructions the source names (`00_scope.md` R2). -/
def Mnemonic.tier1 : List Mnemonic :=
  [.nop, .ldi, .add, .sub, .inc, .dec, .rjmp, .rcall, .ret, .reti]

/-- Tier 2: the nine instructions the spec adds (`00_scope.md` R2, decision D13). -/
def Mnemonic.tier2 : List Mnemonic :=
  [.and, .eor, .or, .com, .lsr, .asr, .ror, .bset, .bclr]

/-- The parameters R9 leaves OPEN. The stack-pointer constants are values of the 16-bit register `sp` (D4). -/
structure Params where
  /-- PROG_SIZE: bytes of program memory. -/
  progSize : Nat
  /-- DATA_SIZE: bytes of data memory. -/
  dataSize : Nat
  /-- SP_TOP: the stack pointer after `initialize`. -/
  spTop : Word
  /-- SP_MIN: the lowest valid stack pointer. -/
  spMin : Word
  /-- SP_MAX: the highest valid stack pointer. -/
  spMax : Word
  /-- SP_LOW_CLAMP: what a decrement below SP_MIN gives. -/
  spLowClamp : Word
  /-- SP_HIGH_CLAMP: what an increment above SP_MAX gives. -/
  spHighClamp : Word
  /-- EXECUTABLE: the recognised instructions that `execute` implements; only membership matters. -/
  executable : List Mnemonic
  deriving DecidableEq, Repr

/-- The default of every parameter, as R9 gives it (the spec's own decisions D2 to D5, D13).
DESIGN CHOICE: `State.reset` is built with these (log entry 1). -/
def Params.default : Params where
  progSize := 8192
  dataSize := 1024
  spTop := 0x03FF
  spMin := 0
  spMax := 0x03FF
  spLowClamp := 0
  spHighClamp := 0x03FF
  executable := Mnemonic.tier1 ++ Mnemonic.tier2

end Sys2Proof
end

