-- ==== Sys2Proof/Syntax.lean ====
section
/-! DEFINITION. The instructions: one constructor per row of `opcode_table.json`, operands typed by the ranges of
`30_encoding.md` R95. -/

namespace Sys2Proof

/-- A decoded instruction (`00_scope.md` R14), in the order of the opcode map of `30_encoding.md` R86. -/
inductive Instr where
  /-- NOP (R110). -/
  | nop
  /-- ADD Rd, Rr (R121). -/
  | add (d r : Reg)
  /-- SUB Rd, Rr (R122). -/
  | sub (d r : Reg)
  /-- AND Rd, Rr (R162). -/
  | and (d r : Reg)
  /-- EOR Rd, Rr (R163). -/
  | eor (d r : Reg)
  /-- OR Rd, Rr (R164). -/
  | or (d r : Reg)
  /-- COM Rd (R165). -/
  | com (d : Reg)
  /-- INC Rd (R123). -/
  | inc (d : Reg)
  /-- ASR Rd (R168). -/
  | asr (d : Reg)
  /-- LSR Rd (R167). -/
  | lsr (d : Reg)
  /-- ROR Rd (R169). -/
  | ror (d : Reg)
  /-- DEC Rd (R124). -/
  | dec (d : Reg)
  /-- BSET s (R170). -/
  | bset (s : FlagIndex)
  /-- BCLR s (R171). -/
  | bclr (s : FlagIndex)
  /-- RET (R143). -/
  | ret
  /-- RETI (R144). -/
  | reti
  /-- RJMP k (R141). -/
  | rjmp (k : Offset)
  /-- RCALL k (R142). -/
  | rcall (k : Offset)
  /-- LDI Rd, K with d in 16..31 (R111; the range is `Instr.wf`). -/
  | ldi (d : Reg) (k : Byte)
  deriving DecidableEq, Repr

/-- The row of the opcode map an instruction belongs to. -/
def Instr.mnemonic : Instr → Mnemonic
  | .nop => .nop
  | .add _ _ => .add
  | .sub _ _ => .sub
  | .and _ _ => .and
  | .eor _ _ => .eor
  | .or _ _ => .or
  | .com _ => .com
  | .inc _ => .inc
  | .asr _ => .asr
  | .lsr _ => .lsr
  | .ror _ => .ror
  | .dec _ => .dec
  | .bset _ => .bset
  | .bclr _ => .bclr
  | .ret => .ret
  | .reti => .reti
  | .rjmp _ => .rjmp
  | .rcall _ => .rcall
  | .ldi _ _ => .ldi

end Sys2Proof
end

