-- ==== Sys2Proof/WellFormed.lean ====
section
/-! DEFINITION. What a well-formed instruction and an admissible parameter set are. -/

namespace Sys2Proof

/-- An instruction some opcode stands for: LDI names only the upper half of the register file (`30_encoding.md` R83,
conflict C2); every other operand is in range by its type (R95). -/
def Instr.wf : Instr → Bool
  | .ldi d _ => decide (16 ≤ d.val)
  | .nop => true
  | .add _ _ => true
  | .sub _ _ => true
  | .and _ _ => true
  | .eor _ _ => true
  | .or _ _ => true
  | .com _ => true
  | .inc _ => true
  | .asr _ => true
  | .lsr _ => true
  | .ror _ => true
  | .dec _ => true
  | .bset _ => true
  | .bclr _ => true
  | .ret => true
  | .reti => true
  | .rjmp _ => true
  | .rcall _ => true

/-- `w` is a stack pointer value inside `[SP_MIN, SP_MAX]` (`10_state.md` R30). -/
abbrev Params.InStack (p : Params) (w : Word) : Prop :=
  p.spMin.toNat ≤ w.toNat ∧ w.toNat ≤ p.spMax.toNat

/-- The constraints between the parameters (`00_scope.md` R9, R10; decision D24). -/
abbrev Params.Valid (p : Params) : Prop :=
  (2 ≤ p.progSize ∧ p.progSize ≤ 65536) ∧
  (2 ≤ p.dataSize ∧ p.dataSize ≤ 65536) ∧
  (p.spMin.toNat ≤ p.spMax.toNat ∧ p.spMax.toNat < p.dataSize) ∧
  p.InStack p.spTop ∧ p.InStack p.spLowClamp ∧ p.InStack p.spHighClamp ∧
  (∀ m ∈ Mnemonic.tier1, m ∈ p.executable)

end Sys2Proof
end

