-- ==== Sys2Proof/Decode.lean ====
section
/-! DEFINITION. Decoding a 16-bit opcode (`30_encoding.md` R80 to R92), the byte order of an opcode (`20_memory.md`
R51), and the encoder written from the "To assemble" formulas of files 40 to 43. -/

namespace Sys2Proof

/-- Little-endian: the byte at the lower address is the less significant (`20_memory.md` R51). -/
def wordOfBytes (lo hi : Byte) : Word := hi ++ lo

/-- Bits 7..0 of a word. -/
def lowByte (w : Word) : Byte := w.extractLsb' 0 8

/-- Bits 15..8 of a word. -/
def highByte (w : Word) : Byte := w.extractLsb' 8 8

/-- One row of the opcode map: an opcode belongs to it when `opcode &&& mask = value`. -/
structure OpcodeRow where
  mnemonic : Mnemonic
  mask : Word
  value : Word
  deriving DecidableEq, Repr

/-- The opcode map of R86, row by row. -/
def opcodeTable : List OpcodeRow :=
  [ ⟨.nop,   0xFFFF, 0x0000⟩,
    ⟨.add,   0xFC00, 0x0C00⟩,
    ⟨.sub,   0xFC00, 0x1800⟩,
    ⟨.and,   0xFC00, 0x2000⟩,
    ⟨.eor,   0xFC00, 0x2400⟩,
    ⟨.or,    0xFC00, 0x2800⟩,
    ⟨.com,   0xFE0F, 0x9400⟩,
    ⟨.inc,   0xFE0F, 0x9403⟩,
    ⟨.asr,   0xFE0F, 0x9405⟩,
    ⟨.lsr,   0xFE0F, 0x9406⟩,
    ⟨.ror,   0xFE0F, 0x9407⟩,
    ⟨.dec,   0xFE0F, 0x940A⟩,
    ⟨.bset,  0xFF8F, 0x9408⟩,
    ⟨.bclr,  0xFF8F, 0x9488⟩,
    ⟨.ret,   0xFFFF, 0x9508⟩,
    ⟨.reti,  0xFFFF, 0x9518⟩,
    ⟨.rjmp,  0xF000, 0xC000⟩,
    ⟨.rcall, 0xF000, 0xD000⟩,
    ⟨.ldi,   0xF000, 0xE000⟩ ]

/-- Does the opcode fit the row (R85)? -/
def rowMatches (w : Word) (row : OpcodeRow) : Bool := w &&& row.mask == row.value

/-- `d = opcode[8:4]` (R82). -/
def fieldD (w : Word) : Reg := ⟨(w.extractLsb' 4 5).toNat, (w.extractLsb' 4 5).isLt⟩

/-- `r = opcode[9] : opcode[3:0]` (R82). -/
def fieldR (w : Word) : Reg :=
  ⟨(w.extractLsb' 9 1 ++ w.extractLsb' 0 4).toNat, (w.extractLsb' 9 1 ++ w.extractLsb' 0 4).isLt⟩

/-- `d = 16 + opcode[7:4]`: LDI's register, forced into the upper half (R83). -/
def fieldUpperD (w : Word) : Reg :=
  ⟨16 + (w.extractLsb' 4 4).toNat, Nat.add_lt_add_left (w.extractLsb' 4 4).isLt 16⟩

/-- `K = opcode[11:8] : opcode[3:0]` (R83). -/
def fieldK (w : Word) : Byte := w.extractLsb' 8 4 ++ w.extractLsb' 0 4

/-- The 12-bit offset `opcode[11:0]` (R84); it is sign-extended where it is used. -/
def fieldOffset (w : Word) : Offset := w.extractLsb' 0 12

/-- `s = opcode[6:4]` (R92). -/
def fieldS (w : Word) : FlagIndex := w.extractLsb' 4 3

/-- The instruction of a row with the operands its format takes from the opcode (R81). -/
def instrOfFields (w : Word) : Mnemonic → Instr
  | .nop => .nop
  | .add => .add (fieldD w) (fieldR w)
  | .sub => .sub (fieldD w) (fieldR w)
  | .and => .and (fieldD w) (fieldR w)
  | .eor => .eor (fieldD w) (fieldR w)
  | .or => .or (fieldD w) (fieldR w)
  | .com => .com (fieldD w)
  | .inc => .inc (fieldD w)
  | .asr => .asr (fieldD w)
  | .lsr => .lsr (fieldD w)
  | .ror => .ror (fieldD w)
  | .dec => .dec (fieldD w)
  | .bset => .bset (fieldS w)
  | .bclr => .bclr (fieldS w)
  | .ret => .ret
  | .reti => .reti
  | .rjmp => .rjmp (fieldOffset w)
  | .rcall => .rcall (fieldOffset w)
  | .ldi => .ldi (fieldUpperD w) (fieldK w)

/-- Why a word is not an instruction. -/
inductive DecodeError where
  /-- `UnknownOpcode`: the opcode fits no row (R88). -/
  | unknownOpcode (opcode : Word)
  deriving DecidableEq, Repr

/-- `decode(opcode)` (R85): total on all 65536 words, rejecting by name. The rows are disjoint (R87), so taking the
first that fits is taking the only one. -/
def decode (w : Word) : Except DecodeError Instr :=
  match opcodeTable.find? (rowMatches w) with
  | some row => .ok (instrOfFields w row.mnemonic)
  | none => .error (.unknownOpcode w)

/-- The host's question of the decoder: the word `w`, numbered as `opcode_table.json` numbers its bits, laid out as
two bytes low byte first and decoded. Bits at or above `nbits` count as 0. -/
def decodeTableWord (nbits w : Nat) : Option Instr :=
  match decode (wordOfBytes (BitVec.ofNat 8 (w % 2 ^ nbits)) (BitVec.ofNat 8 (w % 2 ^ nbits / 256))) with
  | .ok i => some i
  | .error _ => none

/-! ### The encoder -/

/-- Format RR: `base | (r[4] << 9) | (d << 4) | r[3:0]` (R121, R122, R162 to R164). -/
def encodeRR (base : Word) (d r : Reg) : Word :=
  base ||| ((BitVec.ofNat 16 r.val >>> 4) <<< 9) ||| (BitVec.ofNat 16 d.val <<< 4) |||
    (BitVec.ofNat 16 r.val &&& 0x000F)

/-- Format R1: `base | (d << 4)` (R123, R124, R165, R167 to R169). -/
def encodeR1 (base : Word) (d : Reg) : Word := base ||| (BitVec.ofNat 16 d.val <<< 4)

/-- Format REL: `base | (k mod 4096)` (R141, R142). -/
def encodeRel (base : Word) (k : Offset) : Word := base ||| k.setWidth 16

/-- Format SF: `base | (s << 4)` (R170, R171). -/
def encodeSF (base : Word) (s : FlagIndex) : Word := base ||| (s.setWidth 16 <<< 4)

/-- Format RI: `0xE000 | (K[7:4] << 8) | ((d - 16) << 4) | K[3:0]` (R111). -/
def encodeRI (base : Word) (d : Reg) (k : Byte) : Word :=
  base ||| ((k.setWidth 16 >>> 4) <<< 8) ||| (BitVec.ofNat 16 (d.val - 16) <<< 4) ||| (k.setWidth 16 &&& 0x000F)

/-- The opcode of a well-formed instruction. -/
def encode : Instr → Word
  | .nop => 0x0000
  | .add d r => encodeRR 0x0C00 d r
  | .sub d r => encodeRR 0x1800 d r
  | .and d r => encodeRR 0x2000 d r
  | .eor d r => encodeRR 0x2400 d r
  | .or d r => encodeRR 0x2800 d r
  | .com d => encodeR1 0x9400 d
  | .inc d => encodeR1 0x9403 d
  | .asr d => encodeR1 0x9405 d
  | .lsr d => encodeR1 0x9406 d
  | .ror d => encodeR1 0x9407 d
  | .dec d => encodeR1 0x940A d
  | .bset s => encodeSF 0x9408 s
  | .bclr s => encodeSF 0x9488 s
  | .ret => 0x9508
  | .reti => 0x9518
  | .rjmp k => encodeRel 0xC000 k
  | .rcall k => encodeRel 0xD000 k
  | .ldi d k => encodeRI 0xE000 d k

/-- The image bytes of an instruction: its opcode, low byte first (`70_reset_and_hazards.md` R233). -/
def encodeBytes (i : Instr) : List Byte := [lowByte (encode i), highByte (encode i)]

end Sys2Proof
end

