-- ==== Sys2Proof/Machine/State.lean ====
section
/-! DEFINITION. The architectural state (`10_state.md`), the reasons a step can stop, and the state after reset. -/

namespace Sys2Proof.Machine

/-- A byte memory: the listed (address, byte) pairs, addresses strictly rising, no listed byte equal to what an
unlisted address reads as (`Memory.wf` in `Machine/Ops.lean`). -/
abbrev Memory := List Host.Cell

/-- The whole state: the six items of `10_state.md`, and the parameters the machine was built with. -/
structure State where
  /-- x[0] to x[31] (R20). -/
  regs : Vector Byte 32
  /-- SREG, the status-flag byte (R26, R29). -/
  sreg : Byte
  /-- The program counter, a byte address into program memory (R23). -/
  pc : Word
  /-- The stack pointer, a byte address into data memory (R30). -/
  sp : Word
  /-- Program memory (R32). -/
  progMem : Memory
  /-- Data memory (R33). -/
  dataMem : Memory
  /-- The parameters of `00_scope.md` R9. MODEL's own field, written by nothing (log entry 1). -/
  params : Params
  deriving DecidableEq, Repr

/-- Why a step ends without a next state although the spec describes the case (`60_exceptions.md` R200). A fault
changes nothing: the state is the one before the step (R203). -/
inductive Fault where
  /-- `InvalidProgramCounter`, raised by the step when `pc` is odd or fewer than two bytes remain (R201). Safe. -/
  | invalidProgramCounter (pc : Word)
  /-- `UnknownOpcode`, raised by decode (R202). Safe. -/
  | unknownOpcode (opcode : Word)
  /-- `UnsupportedInstruction`, raised for a recognised instruction outside EXECUTABLE (R204). Safe. -/
  | unsupportedInstruction (instr : Instr)
  /-- The model's own: RCALL, RET or RETI used a stack address outside data memory. No state that satisfies
  `State.Inv` raises it (`20_memory.md` R58; log entry 2). Safe. -/
  | dataAddressOutOfRange (addr : Word)
  deriving DecidableEq, Repr

/-- Why the model declines. -/
inductive Refusal where
  /-- An instruction without a meaning, refused by `exec`. No arm does so. Safe. -/
  | notModelled (mnemonic : String)
  /-- The step declines parameters that break `00_scope.md` R10 (U8, D24; log entry 3). Safe. -/
  | parametersOutOfRange
  deriving DecidableEq, Repr

/-- The state `initialize` gives a machine with parameters `p` (`10_state.md` R36, `70_reset_and_hazards.md` R230). -/
def State.initial (p : Params) : State where
  regs := Vector.replicate 32 0
  sreg := 0
  pc := 0
  sp := p.spTop
  progMem := []
  dataMem := []
  params := p

/-- The machine right after reset, with the default parameters of R9 (log entry 1). -/
def State.reset : State := State.initial Params.default

end Sys2Proof.Machine
end

