-- ==== Sys2Proof/Machine/Flags.lean ====
section
/-! DEFINITION. SREG: its bits (`10_state.md` R26) and every flag computation (`41_arithmetic.md`,
`43_logic_shift_flag.md`). -/

namespace Sys2Proof.Machine

/-- The eight flags, in the order of their bit numbers. -/
inductive Flag where
  | c | z | n | v | s | h | t | i
  deriving DecidableEq, Repr

/-- The bit number of a flag (R26, decision D7). -/
def flagBit : Flag → Nat
  | .c => 0
  | .z => 1
  | .n => 2
  | .v => 3
  | .s => 4
  | .h => 5
  | .t => 6
  | .i => 7

/-- `SREG | (1 << b)` (R170). -/
def setSregBit (sreg : Byte) (b : Nat) : Byte := sreg ||| (1#8 <<< b)

/-- `SREG & ~(1 << b)` (R171). -/
def clearSregBit (sreg : Byte) (b : Nat) : Byte := sreg &&& ~~~(1#8 <<< b)

/-- Read of one flag. -/
def getFlag (sreg : Byte) (f : Flag) : Bool := sreg.getLsbD (flagBit f)

/-- `SREG.F <- b`: writes that bit only (`00_scope.md` R12). -/
def putFlag (sreg : Byte) (f : Flag) (b : Bool) : Byte :=
  if b then setSregBit sreg (flagBit f) else clearSregBit sreg (flagBit f)

/-- A flag of the machine. -/
def State.flag (s : State) (f : Flag) : Bool := getFlag s.sreg f

/-- N, Z, V and S of a result `r` whose overflow flag is `v`: `N = R7`, `Z = (R == 0)`, `S = N ^ V` (R120, R161,
R166). C, H, T and I are kept. -/
def putResultFlags (sreg : Byte) (r : Byte) (v : Bool) : Byte :=
  putFlag (putFlag (putFlag (putFlag sreg .v v) .n (r.getLsbD 7)) .z (r == 0)) .s (r.getLsbD 7 ^^ v)

/-- H of ADD (b = 3) and C of ADD (b = 7): `(Rd & Rr) | (Rr & !R) | (!R & Rd)` at bit `b` (R121). -/
def addCarryAt (b : Nat) (rd rr r : Byte) : Bool :=
  (rd.getLsbD b && rr.getLsbD b) || (rr.getLsbD b && !r.getLsbD b) || (!r.getLsbD b && rd.getLsbD b)

/-- V of ADD: `(Rd7 & Rr7 & !R7) | (!Rd7 & !Rr7 & R7)` (R121). -/
def addOverflow (rd rr r : Byte) : Bool :=
  (rd.getLsbD 7 && rr.getLsbD 7 && !r.getLsbD 7) || (!rd.getLsbD 7 && !rr.getLsbD 7 && r.getLsbD 7)

/-- SREG after ADD (R121): H, S, V, N, Z, C written, T and I kept (R126). -/
def addFlags (sreg : Byte) (rd rr r : Byte) : Byte :=
  putResultFlags (putFlag (putFlag sreg .h (addCarryAt 3 rd rr r)) .c (addCarryAt 7 rd rr r)) r
    (addOverflow rd rr r)

/-- H of SUB (b = 3) and C of SUB (b = 7), borrows: `(!Rd & Rr) | (Rr & R) | (R & !Rd)` at bit `b` (R122, D9). -/
def subBorrowAt (b : Nat) (rd rr r : Byte) : Bool :=
  (!rd.getLsbD b && rr.getLsbD b) || (rr.getLsbD b && r.getLsbD b) || (r.getLsbD b && !rd.getLsbD b)

/-- V of SUB: `(Rd7 & !Rr7 & !R7) | (!Rd7 & Rr7 & R7)` (R122). -/
def subOverflow (rd rr r : Byte) : Bool :=
  (rd.getLsbD 7 && !rr.getLsbD 7 && !r.getLsbD 7) || (!rd.getLsbD 7 && rr.getLsbD 7 && r.getLsbD 7)

/-- SREG after SUB (R122): H, S, V, N, Z, C written, T and I kept (R126). -/
def subFlags (sreg : Byte) (rd rr r : Byte) : Byte :=
  putResultFlags (putFlag (putFlag sreg .h (subBorrowAt 3 rd rr r)) .c (subBorrowAt 7 rd rr r)) r
    (subOverflow rd rr r)

/-- SREG after INC (R123): V when the result is the sentinel 0x80 (D10); C and H kept (D11). -/
def incFlags (sreg : Byte) (r : Byte) : Byte := putResultFlags sreg r (r == 0x80)

/-- SREG after DEC (R124): V when the result is the sentinel 0x7F (D10); C and H kept (D11). -/
def decFlags (sreg : Byte) (r : Byte) : Byte := putResultFlags sreg r (r == 0x7F)

/-- SREG after AND, EOR, OR (R161): V cleared, C kept. -/
def logicFlags (sreg : Byte) (r : Byte) : Byte := putResultFlags sreg r false

/-- SREG after COM (R161, R165): as a logical instruction, and C written with 1. -/
def comFlags (sreg : Byte) (r : Byte) : Byte := putFlag (logicFlags sreg r) .c true

/-- SREG after LSR, ASR, ROR (R166): `C = Rd0`, `V = N ^ C` from the new N and C. -/
def shiftFlags (sreg : Byte) (rd r : Byte) : Byte :=
  putResultFlags (putFlag sreg .c (rd.getLsbD 0)) r (r.getLsbD 7 ^^ rd.getLsbD 0)

end Sys2Proof.Machine
end

