-- ==== Sys2Proof/Machine/Operands.lean ====
section
/-! DEFINITION. The operand forms (`40_nop_and_load_immediate.md` R112): register direct, pc-relative, and the moves of
the stack pointer. (The immediate form is LDI's K as it stands.) -/

namespace Sys2Proof.Machine

/-- `x[d]` (`00_scope.md` R12; every register is ordinary, `10_state.md` R21). -/
def State.readReg (s : State) (d : Reg) : Byte := s.regs[d]

/-- `x[d] <- v` (`00_scope.md` R12). -/
def State.writeReg (s : State) (d : Reg) (v : Byte) : State := { s with regs := s.regs.set d.val v d.isLt }

/-- `pc <- (pc + 2) mod 65536` (`10_state.md` R24). -/
def State.advance (s : State) : State := { s with pc := s.pc + 2 }

/-- `Target(pc, k) = (pc + 2 + 2 * k) mod 65536`, k sign-extended to 16 bits (`42_control_flow.md` R140). -/
def relTarget (pc : Word) (k : Offset) : Word := pc + 2 + 2 * k.signExtend 16

/-- `ret = (pc + 2) mod 65536`, the byte address immediately after a call (`42_control_flow.md` R142). -/
def returnAddress (pc : Word) : Word := pc + 2

/-- `SpDec` (`20_memory.md` R57). -/
def spDec (p : Params) (sp : Word) : Word := if sp.toNat ≤ p.spMin.toNat then p.spLowClamp else sp - 1

/-- `SpInc` (`20_memory.md` R57). -/
def spInc (p : Params) (sp : Word) : Word := if p.spMax.toNat ≤ sp.toNat then p.spHighClamp else sp + 1

end Sys2Proof.Machine
end

