-- ==== Sys2Proof/Machine/Ops.lean ====
section
/-! DEFINITION. The named operations over the two memories, the stack, instruction fetch, and the shape every
register-and-flags instruction shares. The hardware has no trap entry and no trap return (`60_exceptions.md` R203,
R207): an error is answered by the step, nothing is saved, so no operation here takes an exception. -/

namespace Sys2Proof.Machine

/-! ### Byte memories -/

/-- What an address nothing has written reads as: 0x00, the reset contents of both memories (`10_state.md` R36). -/
def Memory.unlisted : Byte := 0

/-- The byte at an address. -/
def Memory.read : Memory → Nat → Byte
  | [], _ => Memory.unlisted
  | (b, v) :: m, a => if a = b then v else Memory.read m a

/-- A listing of one byte in front of `m`, none where it is what an unlisted address reads as. -/
def Memory.cons (a : Nat) (v : Byte) (m : Memory) : Memory := if v = Memory.unlisted then m else (a, v) :: m

/-- The memory with one byte written, in canonical form if `m` was. -/
def Memory.write : Memory → Nat → Byte → Memory
  | [], a, v => Memory.cons a v []
  | (b, u) :: m, a, v =>
    if a < b then Memory.cons a v ((b, u) :: m)
    else if a = b then Memory.cons a v m
    else (b, u) :: Memory.write m a v

/-- Bytes written one after the other from `a` upwards. -/
def Memory.writeBytes : Memory → Nat → List Byte → Memory
  | m, _, [] => m
  | m, a, v :: vs => Memory.writeBytes (Memory.write m a v) (a + 1) vs

/-- The canonical form: addresses strictly rising, no listed byte equal to the unlisted one. -/
abbrev Memory.wf (m : Memory) : Prop :=
  m.Pairwise (fun x y => x.1 < y.1) ∧ ∀ x ∈ m, x.2 ≠ Memory.unlisted

/-- Every listed address is below `size`. -/
abbrev Memory.within (m : Memory) (size : Nat) : Prop := ∀ x ∈ m, x.1 < size

/-- The byte of program memory at an address. -/
def State.progByte (s : State) (a : Nat) : Byte := Memory.read s.progMem a

/-- The byte of data memory at an address. -/
def State.dataByte (s : State) (a : Nat) : Byte := Memory.read s.dataMem a

/-! ### Data memory and the stack (`20_memory.md` R53 to R58) -/

/-- `MemRead(addr, 1)`: one byte of data memory, a fault outside it (R58; log entry 2). -/
def loadData (s : State) (a : Word) : Except Fault Byte :=
  if a.toNat < s.params.dataSize then .ok (s.dataByte a.toNat) else .error (.dataAddressOutOfRange a)

/-- `MemWrite(addr, 1, v)`: one byte of data memory, a fault outside it (R58; log entry 2). -/
def storeData (s : State) (a : Word) (v : Byte) : Except Fault State :=
  if a.toNat < s.params.dataSize then .ok { s with dataMem := Memory.write s.dataMem a.toNat v }
  else .error (.dataAddressOutOfRange a)

/-- `Push(v)`: store at `sp`, then decrement (R54, decision D6). -/
def push (s : State) (v : Byte) : Except Fault State :=
  match storeData s s.sp v with
  | .ok t => .ok { t with sp := spDec s.params s.sp }
  | .error f => .error f

/-- `Pop()`: increment `sp`, then read at it (R55, decision D6). -/
def pop (s : State) : Except Fault (Byte × State) :=
  match loadData s (spInc s.params s.sp) with
  | .ok v => .ok (v, { s with sp := spInc s.params s.sp })
  | .error f => .error f

/-- RCALL's two pushes: low byte first, at the higher address, then the high byte (R56, R142). -/
def pushWord (s : State) (w : Word) : Except Fault State :=
  match push s (lowByte w) with
  | .ok t => push t (highByte w)
  | .error f => .error f

/-- The two pops of RET and RETI: the high byte first, then the low byte (R143). -/
def popWord (s : State) : Except Fault (Word × State) :=
  match pop s with
  | .ok (hi, t) =>
    match pop t with
    | .ok (lo, u) => .ok (wordOfBytes lo hi, u)
    | .error f => .error f
  | .error f => .error f

/-! ### The common shape of the instructions that compute into a register -/

/-- `x[d] <- r; SREG <- sreg; pc <- pc + 2`. -/
def writeResult (s : State) (d : Reg) (r sreg : Byte) : Host.Outcome State Fault Refusal :=
  .next { s.writeReg d r with sreg := sreg, pc := s.pc + 2 }

/-- `SREG <- sreg; pc <- pc + 2`. -/
def writeSreg (s : State) (sreg : Byte) : Host.Outcome State Fault Refusal :=
  .next { s with sreg := sreg, pc := s.pc + 2 }

/-! ### Fetch and decode (`70_reset_and_hazards.md` R240) -/

/-- `pc` is even and `pc + 2 <= PROG_SIZE` (`10_state.md` R25). -/
def pcValid (s : State) : Bool :=
  decide (s.pc.toNat % 2 = 0) && decide (s.pc.toNat + 2 ≤ s.params.progSize)

/-- `ProgRead(pc, 2)`: the two bytes at `pc`, little-endian (`20_memory.md` R51). -/
def opcodeAt (s : State) : Word := wordOfBytes (s.progByte s.pc.toNat) (s.progByte (s.pc.toNat + 1))

/-- `EXECUTABLE` as a check (`30_encoding.md` R90). -/
def isExecutable (p : Params) (i : Instr) : Bool := decide (i.mnemonic ∈ p.executable)

/-- Everything a step does before it executes, its three checks in the order of `60_exceptions.md` R205. -/
def fetchInstr (s : State) : Except Fault Instr :=
  if pcValid s then
    match decode (opcodeAt s) with
    | .ok i => if isExecutable s.params i then .ok i else .error (.unsupportedInstruction i)
    | .error (.unknownOpcode w) => .error (.unknownOpcode w)
  else .error (.invalidProgramCounter s.pc)

/-- Program memory with an opcode stored at an address, low byte at the lower address (R51). -/
def placeOpcode (m : Memory) (a : Nat) (w : Word) : Memory :=
  Memory.write (Memory.write m a (lowByte w)) (a + 1) (highByte w)

end Sys2Proof.Machine
end

