-- ==== Sys2Proof/Machine/Arithmetic.lean ====
section
/-! DEFINITION. ADD, SUB, INC, DEC (`41_arithmetic.md`). Operands are read before the result is written
(`00_scope.md` R13). -/

namespace Sys2Proof.Machine

/-- ADD Rd, Rr (R121). -/
def execAdd (d r : Reg) (s : State) : Host.Outcome State Fault Refusal :=
  let rd := s.readReg d
  let rr := s.readReg r
  writeResult s d (rd + rr) (addFlags s.sreg rd rr (rd + rr))

/-- SUB Rd, Rr (R122). -/
def execSub (d r : Reg) (s : State) : Host.Outcome State Fault Refusal :=
  let rd := s.readReg d
  let rr := s.readReg r
  writeResult s d (rd - rr) (subFlags s.sreg rd rr (rd - rr))

/-- INC Rd (R123). -/
def execInc (d : Reg) (s : State) : Host.Outcome State Fault Refusal :=
  writeResult s d (s.readReg d + 1) (incFlags s.sreg (s.readReg d + 1))

/-- DEC Rd (R124). -/
def execDec (d : Reg) (s : State) : Host.Outcome State Fault Refusal :=
  writeResult s d (s.readReg d - 1) (decFlags s.sreg (s.readReg d - 1))

end Sys2Proof.Machine
end

