-- ==== Sys2Proof/Machine/ControlFlow.lean ====
section
/-! DEFINITION. RJMP, RCALL, RET, RETI (`42_control_flow.md`). The only fault here is the model's own
`dataAddressOutOfRange`, which no state satisfying `State.Inv` raises (`20_memory.md` R58; log entry 2). -/

namespace Sys2Proof.Machine

/-- RJMP k (R141). -/
def execRjmp (k : Offset) (s : State) : Host.Outcome State Fault Refusal := .next { s with pc := relTarget s.pc k }

/-- RCALL k (R142): a full stack clamps and is no error. -/
def execRcall (k : Offset) (s : State) : Host.Outcome State Fault Refusal :=
  match pushWord s (returnAddress s.pc) with
  | .ok t => .next { t with pc := relTarget s.pc k }
  | .error f => .fault f

/-- RET (R143): the popped address goes to `pc` unchanged, whatever it is (D15). -/
def execRet (s : State) : Host.Outcome State Fault Refusal :=
  match popWord s with
  | .ok (w, t) => .next { t with pc := w }
  | .error f => .fault f

/-- RETI (R144): as RET, and I is written with 1. -/
def execReti (s : State) : Host.Outcome State Fault Refusal :=
  match popWord s with
  | .ok (w, t) => .next { t with pc := w, sreg := putFlag s.sreg .i true }
  | .error f => .fault f

end Sys2Proof.Machine
end

