-- ==== Sys2Proof/Machine/Logic.lean ====
section
/-! DEFINITION. Tier 2: AND, EOR, OR, COM, LSR, ASR, ROR, BSET, BCLR (`43_logic_shift_flag.md`, R160 to R171; from the
spec's general knowledge, decision D13; log entry 5). Whether one is EXECUTABLE is checked by the step (R240). -/

namespace Sys2Proof.Machine

/-- AND Rd, Rr (R162). -/
def execAnd (d r : Reg) (s : State) : Host.Outcome State Fault Refusal :=
  writeResult s d (s.readReg d &&& s.readReg r) (logicFlags s.sreg (s.readReg d &&& s.readReg r))

/-- EOR Rd, Rr (R163). -/
def execEor (d r : Reg) (s : State) : Host.Outcome State Fault Refusal :=
  writeResult s d (s.readReg d ^^^ s.readReg r) (logicFlags s.sreg (s.readReg d ^^^ s.readReg r))

/-- OR Rd, Rr (R164). -/
def execOr (d r : Reg) (s : State) : Host.Outcome State Fault Refusal :=
  writeResult s d (s.readReg d ||| s.readReg r) (logicFlags s.sreg (s.readReg d ||| s.readReg r))

/-- COM Rd (R165). -/
def execCom (d : Reg) (s : State) : Host.Outcome State Fault Refusal :=
  writeResult s d (~~~s.readReg d) (comFlags s.sreg (~~~s.readReg d))

/-- LSR Rd (R167): bit 7 of the result is 0. -/
def execLsr (d : Reg) (s : State) : Host.Outcome State Fault Refusal :=
  let rd := s.readReg d
  writeResult s d (rd >>> 1) (shiftFlags s.sreg rd (rd >>> 1))

/-- ASR Rd (R168): `(Rd >> 1) | (Rd & 0x80)`. -/
def execAsr (d : Reg) (s : State) : Host.Outcome State Fault Refusal :=
  let rd := s.readReg d
  let r := (rd >>> 1) ||| (rd &&& 0x80)
  writeResult s d r (shiftFlags s.sreg rd r)

/-- ROR Rd (R169): the old C goes to bit 7. -/
def execRor (d : Reg) (s : State) : Host.Outcome State Fault Refusal :=
  let rd := s.readReg d
  let r := (rd >>> 1) ||| (if s.flag .c then 0x80 else 0)
  writeResult s d r (shiftFlags s.sreg rd r)

/-- BSET s (R170). -/
def execBset (b : FlagIndex) (s : State) : Host.Outcome State Fault Refusal :=
  writeSreg s (setSregBit s.sreg b.toNat)

/-- BCLR s (R171). -/
def execBclr (b : FlagIndex) (s : State) : Host.Outcome State Fault Refusal :=
  writeSreg s (clearSregBit s.sreg b.toNat)

end Sys2Proof.Machine
end

