-- ==== Sys2Proof/Machine/NopLoad.lean ====
section
/-! DEFINITION. NOP and LDI (`40_nop_and_load_immediate.md`). -/

namespace Sys2Proof.Machine

/-- NOP (R110): advances `pc` and changes nothing else. -/
def execNop (s : State) : Host.Outcome State Fault Refusal := .next s.advance

/-- LDI Rd, K (R111): no flag is written. -/
def execLdi (d : Reg) (k : Byte) (s : State) : Host.Outcome State Fault Refusal := writeResult s d k s.sreg

end Sys2Proof.Machine
end

