-- ==== Sys2Proof/Machine/Step.lean ====
section
/-! DEFINITION. `step()` (`70_reset_and_hazards.md` R240): fetch, decode, execute, the first failure propagated. -/

namespace Sys2Proof.Machine

/-- One step. Parameters that break `00_scope.md` R10 are declined first (U8, D24; log entry 3). -/
def step (s : State) : Host.Outcome State Fault Refusal :=
  if s.params.Valid then
    match fetchInstr s with
    | .ok i => exec i s
    | .error f => .fault f
  else .refused .parametersOutOfRange

/-- `s` with the opcode `w` stored at `pc`, where the step fetches; bits at or above `nbits` count as 0. -/
def State.withFetchWord (s : State) (nbits w : Nat) : State :=
  { s with progMem := placeOpcode s.progMem s.pc.toNat (BitVec.ofNat 16 (w % 2 ^ nbits)) }

end Sys2Proof.Machine
end

