-- ==== Sys2Proof/Machine/Text.lean ====
section
/-! DEFINITION. The display query `getInstructionMnemonic` (`30_encoding.md` R100), the assembler text of an
instruction (R95), the pseudo-instructions (R96) and the offset a label stands for (R95). Display and notation only:
nothing here changes state. -/

namespace Sys2Proof.Machine

/-- The upper-case mnemonic (R95). -/
def mnemonicText : Mnemonic → String
  | .nop => "NOP"
  | .add => "ADD"
  | .sub => "SUB"
  | .and => "AND"
  | .eor => "EOR"
  | .or => "OR"
  | .com => "COM"
  | .inc => "INC"
  | .asr => "ASR"
  | .lsr => "LSR"
  | .ror => "ROR"
  | .dec => "DEC"
  | .bset => "BSET"
  | .bclr => "BCLR"
  | .ret => "RET"
  | .reti => "RETI"
  | .rjmp => "RJMP"
  | .rcall => "RCALL"
  | .ldi => "LDI"

/-- `R0` to `R31` (R95). -/
def regText (d : Reg) : String := "R" ++ toString d.val

/-- The operands of an instruction as R95 writes them; immediates in decimal (log entry 6). -/
def operandTexts : Instr → List String
  | .nop => []
  | .add d r => [regText d, regText r]
  | .sub d r => [regText d, regText r]
  | .and d r => [regText d, regText r]
  | .eor d r => [regText d, regText r]
  | .or d r => [regText d, regText r]
  | .com d => [regText d]
  | .inc d => [regText d]
  | .asr d => [regText d]
  | .lsr d => [regText d]
  | .ror d => [regText d]
  | .dec d => [regText d]
  | .bset b => [toString b.toNat]
  | .bclr b => [toString b.toNat]
  | .ret => []
  | .reti => []
  | .rjmp k => [toString k.toInt]
  | .rcall k => [toString k.toInt]
  | .ldi d k => [regText d, toString k.toNat]

/-- The assembler text of an instruction (R95). -/
def instrText (i : Instr) : String :=
  match operandTexts i with
  | [] => mnemonicText i.mnemonic
  | ops => mnemonicText i.mnemonic ++ " " ++ ", ".intercalate ops

/-- The instruction a display shows: the one at `pc`, and NOP when the opcode does not decode or `pc` is invalid
(R100, D18). Fetch and decode only: EXECUTABLE is not consulted. -/
def shownInstr (s : State) : Instr :=
  if pcValid s then
    match decode (opcodeAt s) with
    | .ok i => i
    | .error _ => .nop
  else .nop

/-- `getInstructionMnemonic()` (R100). -/
def getInstructionMnemonic (s : State) : String := instrText (shownInstr s)

/-! ### Pseudo-instructions (R96): other names for words of the opcode map -/

/-- `LSL Rd` is `ADD Rd, Rd`. -/
def pseudoLsl (d : Reg) : Instr := .add d d

/-- `TST Rd` is `AND Rd, Rd`. -/
def pseudoTst (d : Reg) : Instr := .and d d

/-- `CLR Rd` is `EOR Rd, Rd`. -/
def pseudoClr (d : Reg) : Instr := .eor d d

/-- `SER Rd` is `LDI Rd, 0xFF`, d in 16..31. -/
def pseudoSer (d : Reg) : Instr := .ldi d 0xFF

/-- `SEC`, `SEZ`, `SEN`, `SEV`, `SES`, `SEH`, `SET`, `SEI` are `BSET 0` to `BSET 7`. -/
def pseudoSetFlag (f : Flag) : Instr := .bset (BitVec.ofNat 3 (flagBit f))

/-- `CLC`, `CLZ`, `CLN`, `CLV`, `CLS`, `CLH`, `CLT`, `CLI` are `BCLR 0` to `BCLR 7`. -/
def pseudoClearFlag (f : Flag) : Instr := .bclr (BitVec.ofNat 3 (flagBit f))

/-- The offset a label stands for: `(label_address - (address_of_instruction + 2)) / 2`, none where it is not a word
offset in -2048..2047 (R95). -/
def labelOffset (addr label : Word) : Option Offset :=
  let bytes : Int := (label.toNat : Int) - ((addr.toNat : Int) + 2)
  if bytes % 2 = 0 ∧ -2048 ≤ bytes / 2 ∧ bytes / 2 ≤ 2047 then some (BitVec.ofInt 12 (bytes / 2)) else none

end Sys2Proof.Machine
end

