-- ==== Sys2Proof/Machine/Loader.lean ====
section
/-! DEFINITION. The host operations that reset the core and fill program memory (`70_reset_and_hazards.md` R230 to
R238). A text is a list of characters. -/

namespace Sys2Proof.Machine

/-- The error kinds of the load operations (R233, R235, R238; `60_exceptions.md` R216). -/
inductive LoadError where
  /-- The image is longer than program memory (R233, R234). -/
  | capacityExceeded
  /-- A line that does not parse: swallowed, never the answer of a load (R238). -/
  | malformedRecord
  /-- A record whose bytes would pass the end of program memory: ends the load (R238). -/
  | addressOutOfRange
  /-- A record neither data nor end-of-file: ends the load (R238, D20). -/
  | unsupportedRecordType
  deriving DecidableEq, Repr

/-- The answer of a load: the state it leaves, and its error if it failed. -/
structure LoadResult where
  state : State
  error : Option LoadError
  deriving DecidableEq, Repr

/-- `initialize()` (R230): everything at its reset value; the parameters are the machine's. -/
def reinitialise (s : State) : State := State.initial s.params

/-- `erase()` (R232): program memory zeroed and `pc` 0, nothing else touched. -/
def erase (s : State) : State := { s with progMem := [], pc := 0 }

/-- `loadFlatBinary(bytes)` (R233). -/
def loadFlatBinary (bytes : List Byte) (s : State) : LoadResult :=
  if bytes.length ≤ s.params.progSize then
    { state := { s with progMem := Memory.writeBytes s.progMem 0 bytes }, error := none }
  else { state := s, error := some .capacityExceeded }

/-- `loadFromVector(bytes)` (R234): erases first, and stays erased if the image is too long. -/
def loadFromVector (bytes : List Byte) (s : State) : LoadResult := loadFlatBinary bytes (erase s)

/-! ### Hex records -/

/-- The lines of a text: each ends at LF, an optional CR before it belonging to the terminator (R235, D20); what
follows the last LF is a line too (log entry 7). -/
def textLines : List Char → List (List Char)
  | [] => [[]]
  | '\r' :: '\n' :: cs => [] :: textLines cs
  | '\n' :: cs => [] :: textLines cs
  | c :: cs =>
    match textLines cs with
    | l :: ls => (c :: l) :: ls
    | [] => [[c]]

/-- The value of a hex digit, either case (R235, D20). -/
def hexDigit (c : Char) : Option Nat :=
  if '0'.toNat ≤ c.toNat ∧ c.toNat ≤ '9'.toNat then some (c.toNat - '0'.toNat)
  else if 'a'.toNat ≤ c.toNat ∧ c.toNat ≤ 'f'.toNat then some (c.toNat - 'a'.toNat + 10)
  else if 'A'.toNat ≤ c.toNat ∧ c.toNat ≤ 'F'.toNat then some (c.toNat - 'A'.toNat + 10)
  else none

/-- Two digits a byte, high digit first; none for an odd length or a pair that is not two hex digits (R235). -/
def hexBytes : List Char → Option (List Byte)
  | [] => some []
  | [_] => none
  | a :: b :: cs =>
    match hexDigit a, hexDigit b, hexBytes cs with
    | some x, some y, some bs => some (BitVec.ofNat 8 (16 * x + y) :: bs)
    | _, _, _ => none

/-- A hex record (`00_scope.md` R14); its checksum is read and ignored (U21). -/
structure HexRecord where
  addr : Nat
  recType : Byte
  data : List Byte
  deriving DecidableEq, Repr

/-- One leading record marker removed, if present (R235). -/
def stripMarker : List Char → List Char
  | ':' :: cs => cs
  | cs => cs

/-- The record of a line: count, address high byte first, type, data, checksum, in exactly `5 + count` bytes (R235). -/
def parseRecord (line : List Char) : Except LoadError HexRecord :=
  match hexBytes (stripMarker line) with
  | some (n :: hi :: lo :: ty :: rest) =>
    if rest.length = n.toNat + 1 then
      .ok { addr := hi.toNat * 256 + lo.toNat, recType := ty, data := rest.take n.toNat }
    else .error .malformedRecord
  | _ => .error .malformedRecord

/-- The lines of a text placed one after the other into a program memory of `size` bytes (R235, R238): what is
already placed stays when a record ends the load. -/
def placeLines (size : Nat) : Memory → List (List Char) → Memory × Option LoadError
  | m, [] => (m, none)
  | m, l :: ls =>
    match parseRecord l with
    | .error _ => placeLines size m ls
    | .ok r =>
      if r.recType = 0x00 then
        if r.addr + r.data.length ≤ size then placeLines size (Memory.writeBytes m r.addr r.data) ls
        else (m, some .addressOutOfRange)
      else if r.recType = 0x01 then (m, none)
      else (m, some .unsupportedRecordType)

/-- `loadHexRecords(text)` (R235): neither erases nor writes `pc`. -/
def loadHexRecords (text : List Char) (s : State) : LoadResult :=
  { state := { s with progMem := (placeLines s.params.progSize s.progMem (textLines text)).1 },
    error := (placeLines s.params.progSize s.progMem (textLines text)).2 }

end Sys2Proof.Machine
end

