-- ==== Sys2Proof/Machine/HostPort.lean ====
section
/-! DEFINITION. The block's interface as transactions (`00_scope.md` R7, R8): every request the host can make that may
change state, and the answer to it. The read-only accessors are the fields of State and the two views below. -/

namespace Sys2Proof.Machine

/-- The state-changing host requests; the list of R7 is complete. -/
inductive HostRequest where
  /-- `initialize()` (R230). -/
  | reinitialise
  /-- `erase()` (R232). -/
  | erase
  /-- `loadFlatBinary(bytes)` (R233). -/
  | loadFlatBinary (bytes : List Byte)
  /-- `loadFromVector(bytes)` (R234). -/
  | loadFromVector (bytes : List Byte)
  /-- `loadHexRecords(text)` (R235). -/
  | loadHexRecords (text : List Char)
  /-- `step()` (R240). -/
  | step
  deriving DecidableEq, Repr

/-- What a request can fail with. -/
inductive HostError where
  /-- An error kind of a step (`60_exceptions.md` R200). -/
  | stepFault (f : Fault)
  /-- The model declined the step. -/
  | stepRefused (r : Refusal)
  /-- An error kind of a load. -/
  | load (e : LoadError)
  deriving DecidableEq, Repr

/-- The state after a request, and its error if it failed. -/
structure Reply where
  state : State
  error : Option HostError
  deriving DecidableEq, Repr

/-- A load's answer as a reply. -/
def replyOfLoad (r : LoadResult) : Reply := { state := r.state, error := r.error.map .load }

/-- A step's answer as a reply: an error is precise and changes nothing (`60_exceptions.md` R203). -/
def replyOfStep (s : State) : Host.Outcome State Fault Refusal → Reply
  | .next t => { state := t, error := none }
  | .fault f => { state := s, error := some (.stepFault f) }
  | .refused r => { state := s, error := some (.stepRefused r) }

/-- One host request, atomic (`20_memory.md` R63). -/
def serve (s : State) : HostRequest → Reply
  | .reinitialise => { state := reinitialise s, error := none }
  | .erase => { state := erase s, error := none }
  | .loadFlatBinary bytes => replyOfLoad (loadFlatBinary bytes s)
  | .loadFromVector bytes => replyOfLoad (loadFromVector bytes s)
  | .loadHexRecords text => replyOfLoad (loadHexRecords text s)
  | .step => replyOfStep s (step s)

/-- Requests served one after the other; errors are the host's business and stop nothing. -/
def serveAll : State → List HostRequest → State
  | s, [] => s
  | s, q :: qs => serveAll (serve s q).state qs

/-- Program memory as the host reads it: `PROG_SIZE` bytes (R8). -/
def State.programBytes (s : State) : List Byte := (List.range s.params.progSize).map s.progByte

/-- Data memory as the host reads it: `DATA_SIZE` bytes (R8). -/
def State.dataBytes (s : State) : List Byte := (List.range s.params.dataSize).map s.dataByte

end Sys2Proof.Machine
end

