-- ==== Sys2Proof/Machine/Run.lean ====
section
/-! DEFINITION. The two reference states of a run (`70_reset_and_hazards.md` R243) and the model's end-of-run
convention, which R243 asks every model to state (D21, U22; log entry 10). -/

namespace Sys2Proof.Machine

/-- The idle loop: `pc` is valid and the opcode there is 0xCFFF, `RJMP -1` (R243 (a)). -/
abbrev idleLoop (s : State) : Prop := pcValid s = true ∧ opcodeAt s = 0xCFFF

/-- A fault state: the step answers an error (R243 (b)). -/
def faultState (s : State) : Prop := ∃ f, step s = .fault f

/-- Where a run stands at a state. -/
inductive RunStatus where
  /-- The run goes on: the host may request a step that changes the state. -/
  | running
  /-- The run has ended as a program means it to: at the idle loop (R243 (a)). -/
  | idle
  /-- The run has ended in a fault state, which a correct program never reaches (R243 (b)). -/
  | faulted (f : Fault)
  /-- The model declines the parameters, so there is no run (log entry 3). -/
  | declined (r : Refusal)
  deriving DecidableEq, Repr

/-- The end-of-run convention: a run ends at the first state that is a fault state or the idle loop, and nowhere else.
DESIGN CHOICE (log entry 10): the hardware has no end of its own (R243). -/
def runStatus (s : State) : RunStatus :=
  match step s with
  | .next _ => if idleLoop s then .idle else .running
  | .fault f => .faulted f
  | .refused r => .declined r

/-- The run of at most `n` requested steps: the state at its end, or after `n` steps, and how it stands there. -/
def runFor : Nat → State → State × RunStatus
  | 0, s => (s, runStatus s)
  | n + 1, s =>
    match runStatus s with
    | .running => runFor n (serve s .step).state
    | .idle => (s, .idle)
    | .faulted f => (s, .faulted f)
    | .declined r => (s, .declined r)

end Sys2Proof.Machine
end

