-- ==== Sys2Proof/Safety.lean ====
section
/-! DEFINITION. What claims about the machine are stated in: the invariant of a running machine (`10_state.md` R38),
the frames of instructions, instructions in a row. (The reference states and the end of a run are in `Machine/Run.lean`.) -/

namespace Sys2Proof.Machine

/-- The invariant of a machine (R38): admissible parameters (R10), the stack pointer in its range (R30), both
memories in canonical form and inside their capacities (R32, R33). -/
abbrev State.Inv (s : State) : Prop :=
  s.params.Valid ∧ s.params.InStack s.sp ∧
  (Memory.wf s.progMem ∧ Memory.within s.progMem s.params.progSize) ∧
  (Memory.wf s.dataMem ∧ Memory.within s.dataMem s.params.dataSize)

/-- Every register but `d` holds what it held. -/
def otherRegsKept (d : Reg) (s t : State) : Prop := ∀ q : Reg, q ≠ d → t.readReg q = s.readReg q

/-- Every register holds what it held. -/
def allRegsKept (s t : State) : Prop := ∀ q : Reg, t.readReg q = s.readReg q

/-- Every flag in the list holds what it held. -/
def flagsKept (fs : List Flag) (s t : State) : Prop := ∀ f ∈ fs, t.flag f = s.flag f

/-- Every byte of both memories reads as before, and the parameters stand. -/
def memoriesKept (s t : State) : Prop :=
  (∀ a, t.dataByte a = s.dataByte a) ∧ (∀ a, t.progByte a = s.progByte a) ∧ t.params = s.params

/-- What an instruction that computes into register `d` leaves alone besides flags: the other registers, `sp` and both
memories; it advances `pc` by 2 (`10_state.md` R22, R24; `20_memory.md` R66). -/
def regResultFrame (d : Reg) (s t : State) : Prop :=
  otherRegsKept d s t ∧ t.sp = s.sp ∧ memoriesKept s t ∧ t.pc.toNat = (s.pc.toNat + 2) % 65536

/-- The flags every result sets the same way: `N = R7`, `Z = (R == 0)`, `S = N ^ V` (`41_arithmetic.md` R120). -/
def resultFlagsHold (r : Byte) (t : State) : Prop :=
  t.flag .n = decide (128 ≤ r.toNat) ∧ t.flag .z = decide (r.toNat = 0) ∧ t.flag .s = (t.flag .n ^^ t.flag .v)

/-- The one register an instruction may write, if any (the table of `10_state.md` R22). -/
def destReg : Instr → Option Reg
  | .nop | .bset _ | .bclr _ | .ret | .reti | .rjmp _ | .rcall _ => none
  | .add d _ | .sub d _ | .and d _ | .eor d _ | .or d _ => some d
  | .com d | .inc d | .asr d | .lsr d | .ror d | .dec d => some d
  | .ldi d _ => some d

/-- The flags an instruction may write (the table of `10_state.md` R27; BSET and BCLR write the flag whose bit number
they name). -/
def writesFlag : Instr → Flag → Bool
  | .nop, _ | .ldi _ _, _ | .rjmp _, _ | .rcall _, _ | .ret, _ => false
  | .reti, f => decide (f = .i)
  | .add _ _, f | .sub _ _, f => decide (f ∈ [Flag.h, .s, .v, .n, .z, .c])
  | .inc _, f | .dec _, f => decide (f ∈ [Flag.s, .v, .n, .z])
  | .and _ _, f | .eor _ _, f | .or _ _, f => decide (f ∈ [Flag.s, .v, .n, .z])
  | .com _, f | .lsr _, f | .asr _, f | .ror _, f => decide (f ∈ [Flag.s, .v, .n, .z, .c])
  | .bset b, f | .bclr b, f => decide (flagBit f = b.toNat)

/-- The branching instructions (`42_control_flow.md`). -/
def isBranching : Instr → Bool
  | .rjmp _ | .rcall _ | .ret | .reti => true
  | .nop | .ldi _ _ | .add _ _ | .sub _ _ | .inc _ | .dec _ | .and _ _ | .eor _ _ | .or _ _ => false
  | .com _ | .lsr _ | .asr _ | .ror _ | .bset _ | .bclr _ => false

/-- Two states that differ at most in SREG. -/
def agreeButSreg (s t : State) : Prop :=
  t.regs = s.regs ∧ t.pc = s.pc ∧ t.sp = s.sp ∧ t.progMem = s.progMem ∧ t.dataMem = s.dataMem ∧ t.params = s.params

/-- Instructions executed one after the other (as meanings, not fetched); none when one of them does not complete. -/
def execAll : List Instr → State → Option State
  | [], s => some s
  | i :: is, s =>
    match exec i s with
    | .next t => execAll is t
    | .fault _ => none
    | .refused _ => none

end Sys2Proof.Machine
end

