-- ==== Sys2Proof/Certificates/Slice0/Obligations.lean ====
section
/-! DEFINITION. The statements for the provers. Each docstring names the rule of spec/ it formalises. Where a rule
carries one of the spec's own marks ([decision], [derived], [from general knowledge, not in source]) the docstring says
so, and the statement's basis is 'derived'. -/

open Sys2Proof Sys2Proof.Machine

/-! ### Encoding (`30_encoding.md`) -/

/-- `30_encoding.md` sections 2 and 3 with the "To assemble" formulas of files 40 to 43: every well-formed instruction,
with every operand value, decodes back from its opcode. (The rows marked K there are the spec's general knowledge.) -/
def Obligations.DecodeOfEncodeIsTheInstruction : Prop :=
  ∀ i : Instr, i.wf = true → decode (encode i) = .ok i

/-- `30_encoding.md` section 3: every opcode that decodes is the encoding of the well-formed instruction it decodes to,
so no bit of a recognised opcode is ignored. -/
def Obligations.EncodeOfDecodeIsTheOpcode : Prop :=
  ∀ (w : Word) (i : Instr), decode w = .ok i → i.wf = true ∧ encode i = w

/-- R85: decode returns the instruction of the only row the opcode fits, with its operand fields, and fails with
`UnknownOpcode` when no row fits. -/
def Obligations.EveryOpcodeFitsOneRowOrIsUnknown : Prop :=
  ∀ w : Word,
    (∃ row ∈ opcodeTable, rowMatches w row = true ∧ (∀ row' ∈ opcodeTable, rowMatches w row' = true → row' = row) ∧
      decode w = .ok (instrOfFields w row.mnemonic) ∧ (instrOfFields w row.mnemonic).mnemonic = row.mnemonic) ∨
    ((∀ row ∈ opcodeTable, rowMatches w row = false) ∧ decode w = .error (.unknownOpcode w))

/-- `30_encoding.md` section 2: the operand fields are the numbered bits of the opcode. (R82's RR layout is marked
general knowledge, R83's nibble order [derived].) -/
def Obligations.OperandFieldsAreTheNumberedBits : Prop :=
  ∀ w : Word,
    (fieldD w).val = w.toNat / 16 % 32 ∧
    (fieldR w).val = w.toNat / 512 % 2 * 16 + w.toNat % 16 ∧
    (fieldUpperD w).val = 16 + w.toNat / 16 % 16 ∧
    (fieldK w).toNat = w.toNat / 256 % 16 * 16 + w.toNat % 16 ∧
    (fieldS w).toNat = w.toNat / 16 % 8

/-- R84: the offset of RJMP and RCALL is the low 12 bits read as a two's-complement number, and it is scaled by 2 where
it is used. -/
def Obligations.RelativeOffsetIsSignedAndScaled : Prop :=
  ∀ (w : Word) (k : Offset), decode w = .ok (.rjmp k) ∨ decode w = .ok (.rcall k) →
    k.toInt = (if w.toNat % 4096 < 2048 then (w.toNat % 4096 : Int) else (w.toNat % 4096 : Int) - 4096) ∧
    (-2048 ≤ k.toInt ∧ k.toInt ≤ 2047) ∧
    (k.signExtend 16).toInt = k.toInt ∧
    ∀ pc : Word, ((relTarget pc k).toNat : Int) = ((pc.toNat : Int) + 2 + k.toInt * 2) % 65536

/-- Words written out from `30_encoding.md` R86 and the examples of files 40 to 43, one of each format and more. -/
def Obligations.SampleWordsDecode : Prop :=
  decode 0x0000 = .ok .nop ∧ decode 0x0F01 = .ok (.add 16 17) ∧ decode 0x1B01 = .ok (.sub 16 17) ∧
  decode 0x9503 = .ok (.inc 16) ∧ decode 0x950A = .ok (.dec 16) ∧ decode 0x9478 = .ok (.bset 7) ∧
  decode 0x94D8 = .ok (.bclr 5) ∧ decode 0xEF1F = .ok (.ldi 17 0xFF) ∧ decode 0xCFFD = .ok (.rjmp (-3)) ∧
  decode 0x9518 = .ok .reti

/-! ### Reset, fetch and step (`10_state.md`, `20_memory.md`, `70_reset_and_hazards.md`) -/

/-- R36 and R230: `initialize` gives every piece of state its reset value, whatever it held. -/
def Obligations.InitialiseGivesEveryResetValue : Prop :=
  ∀ s : State, (serve s .reinitialise).error = none ∧
    (∀ d, (serve s .reinitialise).state.readReg d = 0) ∧
    (serve s .reinitialise).state.sreg = 0 ∧ (∀ f, (serve s .reinitialise).state.flag f = false) ∧
    (serve s .reinitialise).state.pc = 0 ∧
    (serve s .reinitialise).state.sp = s.params.spTop ∧
    (∀ a, (serve s .reinitialise).state.progByte a = 0) ∧
    (∀ a, (serve s .reinitialise).state.dataByte a = 0) ∧
    opcodeAt (serve s .reinitialise).state = 0 ∧ decode 0 = .ok .nop ∧
    (serve s .reinitialise).state.params = s.params

/-- The model's choice of log entry 1: `State.reset` is `initialize` with the default of every OPEN parameter of R9. -/
def Obligations.ResetUsesTheDefaultParameters : Prop :=
  State.reset = reinitialise State.reset ∧ State.reset.sp.toNat = 0x03FF ∧
  State.reset.params.progSize = 8192 ∧ State.reset.params.dataSize = 1024 ∧
  State.reset.params.spTop = 0x03FF ∧ State.reset.params.spMin = 0 ∧ State.reset.params.spMax = 0x03FF ∧
  State.reset.params.spLowClamp = 0 ∧ State.reset.params.spHighClamp = 0x03FF ∧
  ∀ m : Mnemonic, m ∈ State.reset.params.executable

/-- R51: fetch assembles the two bytes at `pc` low byte first. -/
def Obligations.FetchIsLittleEndian : Prop :=
  ∀ s : State, (opcodeAt s).toNat = (s.progByte s.pc.toNat).toNat + 256 * (s.progByte (s.pc.toNat + 1)).toNat

/-- R240 with R205: the three checks in their order, then the execution of the decoded instruction. With admissible
parameters, as R9 and R10 require of every machine. -/
def Obligations.StepRunsTheDecodedInstruction : Prop :=
  ∀ s : State, s.params.Valid →
    ((s.pc.toNat % 2 = 1 ∨ s.params.progSize < s.pc.toNat + 2) → step s = .fault (.invalidProgramCounter s.pc)) ∧
    (s.pc.toNat % 2 = 0 → s.pc.toNat + 2 ≤ s.params.progSize →
      (∀ w, decode (opcodeAt s) = .error (.unknownOpcode w) → step s = .fault (.unknownOpcode w)) ∧
      (∀ i, decode (opcodeAt s) = .ok i → i.mnemonic ∉ s.params.executable →
        step s = .fault (.unsupportedInstruction i)) ∧
      (∀ i, decode (opcodeAt s) = .ok i → i.mnemonic ∈ s.params.executable → step s = exec i s))

/-- R88: an opcode that fits no row is unknown, the step that fetches it fails with it and changes no state, and every
one of the 65536 opcodes has one of the two fixed outcomes. -/
def Obligations.UnmatchedOpcodeRaisesUnknownOpcode : Prop :=
  (∀ s : State, s.params.Valid → pcValid s = true →
    (∀ row ∈ opcodeTable, rowMatches (opcodeAt s) row = false) →
    serve s .step = { state := s, error := some (.stepFault (.unknownOpcode (opcodeAt s))) }) ∧
  ∀ w : Word, (∃ i, decode w = .ok i ∧ i.wf = true) ∨ decode w = .error (.unknownOpcode w)

/-- R204: `UnsupportedInstruction` never occurs with the default EXECUTABLE; with EXECUTABLE restricted to Tier 1 it is
raised exactly for the nine Tier 2 instructions; the state is unchanged. -/
def Obligations.UnsupportedInstructionIsTheExecutableSplit : Prop :=
  (∀ s : State, s.params.executable = Params.default.executable → ∀ i, step s ≠ .fault (.unsupportedInstruction i)) ∧
  (∀ s : State, s.params.Valid → s.params.executable = Mnemonic.tier1 → pcValid s = true →
    ∀ i, decode (opcodeAt s) = .ok i →
      (i.mnemonic ∈ Mnemonic.tier2 ↔ step s = .fault (.unsupportedInstruction i)) ∧
      (i.mnemonic ∈ Mnemonic.tier2 →
        serve s .step = { state := s, error := some (.stepFault (.unsupportedInstruction i)) }))

/-- R203: a step that ends in an error leaves every piece of architectural state as it was. -/
def Obligations.ErrorsChangeNothing : Prop :=
  ∀ (s : State) (f : Fault), step s = .fault f → serve s .step = { state := s, error := some (.stepFault f) }

/-- `60_exceptions.md` section 3, R206 (marked [derived]): a fault state is left by no step, and the error repeats. -/
def Obligations.FaultStatesArePermanent : Prop :=
  ∀ (s : State) (f : Fault), step s = .fault f → ∀ n : Nat,
    serveAll s (List.replicate n .step) = s ∧
    (serve (serveAll s (List.replicate n .step)) .step).error = some (.stepFault f)

/-- `60_exceptions.md` section 1, R200 (its `InvalidProgramCounter` is the spec's decision D14): in every state of the
invariant a step ends in success or in exactly one of the three error kinds, each under its own condition. -/
def Obligations.StepEndsInSuccessOrOneOfThreeErrors : Prop :=
  ∀ s : State, s.Inv →
    (∃ t, step s = .next t ∧ pcValid s = true) ∨
    (step s = .fault (.invalidProgramCounter s.pc) ∧ pcValid s = false) ∨
    (step s = .fault (.unknownOpcode (opcodeAt s)) ∧ pcValid s = true ∧
      decode (opcodeAt s) = .error (.unknownOpcode (opcodeAt s))) ∨
    (∃ i, step s = .fault (.unsupportedInstruction i) ∧ pcValid s = true ∧ decode (opcodeAt s) = .ok i ∧
      i.mnemonic ∉ s.params.executable)

/-- The model's choice of log entry 3 (R10 and U8 allow it): a step declines parameters that break R10. -/
def Obligations.StepRefusesInadmissibleParameters : Prop :=
  ∀ s : State, (step s = .refused .parametersOutOfRange ↔ ¬ s.params.Valid) ∧
    ∀ m, step s ≠ .refused (.notModelled m)

/-- Log entry 4, with `70_reset_and_hazards.md` section 3: the opcode of any executable well-formed instruction placed
at `pc` of the reset state is what the next step executes. -/
def Obligations.StepAfterPlacementRunsTheInstruction : Prop :=
  ∀ i : Instr, i.wf = true →
    step (State.reset.withFetchWord 16 (encode i).toNat) = exec i (State.reset.withFetchWord 16 (encode i).toNat)

/-! ### Invariants -/

/-- `10_state.md` section 7, R38: `initialize` establishes the invariant for all admissible parameters, and so does
reset (whose parameters are log entry 1's). -/
def Obligations.ResetStatesSatisfyTheInvariant : Prop :=
  State.reset.Inv ∧ ∀ p : Params, p.Valid → (State.initial p).Inv

/-- `10_state.md` section 7, R38 (marked [derived]): every step keeps the invariant: the parameters stay admissible, the
stack pointer in its range, both memories canonical and inside their capacities. -/
def Obligations.EveryStepKeepsTheInvariant : Prop :=
  ∀ s t : State, s.Inv → step s = .next t → t.Inv

/-- `10_state.md` section 7, R38 (marked [derived]) over everything the host can do (`00_scope.md` R7): any sequence of
requests keeps the invariant and the parameters. -/
def Obligations.EveryRequestSequenceKeepsTheInvariant : Prop :=
  ∀ (qs : List HostRequest) (s : State), s.Inv → (serveAll s qs).Inv ∧ (serveAll s qs).params = s.params

/-- R216: no instruction raises an error during its execution; a transfer to an invalid address succeeds and the error
belongs to the next step. -/
def Obligations.NoInstructionFailsDuringExecution : Prop :=
  ∀ (i : Instr) (s : State), s.Inv →
    ∃ t, exec i s = .next t ∧ t.params.InStack t.sp ∧
      (pcValid t = false → step t = .fault (.invalidProgramCounter t.pc))

/-- `10_state.md` section 7, R38 (e) (marked [derived]): every instruction but RET and RETI keeps `pc` even, and the
address RCALL pushes is even. -/
def Obligations.PcStaysEvenExceptByReturns : Prop :=
  ∀ (i : Instr) (s t : State), i ≠ .ret → i ≠ .reti → s.pc.toNat % 2 = 0 → exec i s = .next t →
    t.pc.toNat % 2 = 0 ∧ (returnAddress s.pc).toNat % 2 = 0

/-! ### Frames over all instructions -/

/-- `10_state.md` section 1, R22 (marked [derived]): an instruction writes no register but its one destination. -/
def Obligations.OnlyTheDestinationRegisterChanges : Prop :=
  ∀ (i : Instr) (s t : State), exec i s = .next t → ∀ q : Reg, destReg i ≠ some q → t.readReg q = s.readReg q

/-- `10_state.md` section 3, R27 (decisions C6, D11, and general knowledge for Tier 2): an instruction keeps every flag
its row of the table does not write. -/
def Obligations.OnlyTheTabledFlagsChange : Prop :=
  ∀ (i : Instr) (s t : State), exec i s = .next t → ∀ f : Flag, writesFlag i f = false → t.flag f = s.flag f

/-- `20_memory.md` section 5: no instruction writes program memory; RCALL alone writes data memory, the two bytes its
two pushes address; only RCALL, RET and RETI move `sp`. -/
def Obligations.OnlyRcallWritesMemory : Prop :=
  ∀ (i : Instr) (s t : State), exec i s = .next t →
    (∀ a, t.progByte a = s.progByte a) ∧ t.params = s.params ∧
    ((∀ k, i ≠ .rcall k) → ∀ a, t.dataByte a = s.dataByte a) ∧
    (∀ a, a ≠ s.sp.toNat → a ≠ (spDec s.params s.sp).toNat → t.dataByte a = s.dataByte a) ∧
    ((∀ k, i ≠ .rcall k) → i ≠ .ret → i ≠ .reti → t.sp = s.sp)

/-- `10_state.md` section 2, R24: every non-branching instruction completes and advances `pc` by 2; a step that ends in
an error does not write `pc`. -/
def Obligations.NonBranchingInstructionsAdvanceByTwo : Prop :=
  (∀ (i : Instr) (s : State), isBranching i = false →
    ∃ t, exec i s = .next t ∧ t.pc.toNat = (s.pc.toNat + 2) % 65536) ∧
  ∀ s : State, (serve s .step).error ≠ none → (serve s .step).state.pc = s.pc

/-- `10_state.md` section 3, R28 (marked [derived]): the only flag read is C, and only by ROR: two states that differ in
SREG alone (for ROR, not in C) run every instruction to states that differ in SREG alone and have the same value of every
flag the instruction writes, or to the same fault. -/
def Obligations.OnlyRorReadsAFlag : Prop :=
  ∀ (i : Instr) (s s' : State), agreeButSreg s s' → ((∃ d, i = .ror d) → s'.flag .c = s.flag .c) →
    (∀ t, exec i s = .next t → ∃ t', exec i s' = .next t' ∧ agreeButSreg t t' ∧
      ∀ f, writesFlag i f = true → t'.flag f = t.flag f) ∧
    (∀ f, exec i s = .fault f → exec i s' = .fault f)

/-- R210: I is 0 after `initialize`, set by RETI and by `BSET 7`, cleared by `BCLR 7`, kept by everything else, and
nothing reads it: a state with another I runs to a state equal but for I, or to the same fault. -/
def Obligations.InterruptFlagHasNoEffect : Prop :=
  (∀ s, (serve s .reinitialise).state.flag .i = false) ∧
  (∀ (i : Instr) (s t : State), exec i s = .next t →
    t.flag .i = if i = .reti ∨ i = .bset 7 then true else if i = .bclr 7 then false else s.flag .i) ∧
  (∀ (i : Instr) (s : State) (b : Bool),
    (∀ t, exec i s = .next t →
      ∃ c, exec i { s with sreg := putFlag s.sreg .i b } = .next { t with sreg := putFlag t.sreg .i c }) ∧
    (∀ f, exec i s = .fault f → exec i { s with sreg := putFlag s.sreg .i b } = .fault f))

/-! ### NOP and LDI -/

/-- R110: NOP advances `pc` by 2 and changes nothing else; its opcode is all zeros, so zeroed program memory is a run of
NOPs: n steps through it advance `pc` by 2n (wrapping to 0 at the end of 65536 bytes), and at `pc` = PROG_SIZE the step
raises `InvalidProgramCounter`. -/
def Obligations.NopAdvancesAndChangesNothingElse : Prop :=
  (∀ s : State, ∃ t, exec .nop s = .next t ∧ t.pc.toNat = (s.pc.toNat + 2) % 65536 ∧ allRegsKept s t ∧
    t.sreg = s.sreg ∧ t.sp = s.sp ∧ memoriesKept s t) ∧
  (∀ w : Word, w &&& 0xFFFF = 0x0000 ↔ decode w = .ok .nop) ∧
  (∀ (s : State) (n : Nat), s.params.Valid → s.progMem = [] → s.pc.toNat % 2 = 0 →
    s.pc.toNat + 2 * n ≤ s.params.progSize →
    serveAll s (List.replicate n .step) = { s with pc := s.pc + BitVec.ofNat 16 (2 * n) }) ∧
  ∀ s : State, s.params.Valid → s.pc.toNat = s.params.progSize → step s = .fault (.invalidProgramCounter s.pc)

/-- R111: LDI writes K to a register of the upper half and no flag, and no opcode of it names another register. -/
def Obligations.LdiLoadsTheImmediate : Prop :=
  (∀ (d : Reg) (k : Byte) (s : State), 16 ≤ d.val →
    ∃ t, exec (.ldi d k) s = .next t ∧ t.readReg d = k ∧ t.sreg = s.sreg ∧ regResultFrame d s t) ∧
  (∀ (d : Reg) (k : Byte), 16 ≤ d.val →
    (encode (.ldi d k)).toNat = 0xE000 + k.toNat / 16 * 256 + (d.val - 16) * 16 + k.toNat % 16 ∧
    decode (encode (.ldi d k)) = .ok (.ldi d k)) ∧
  (∀ w : Word, w &&& 0xF000 = 0xE000 ↔ ∃ d k, decode w = .ok (.ldi d k) ∧ 16 ≤ d.val ∧
    d.val = 16 + w.toNat / 16 % 16 ∧ k.toNat = w.toNat / 256 % 16 * 16 + w.toNat % 16) ∧
  ∀ (w : Word) (d : Reg) (k : Byte), decode w = .ok (.ldi d k) → 16 ≤ d.val

/-! ### Arithmetic (`41_arithmetic.md`) -/

/-- `41_arithmetic.md` section 2, R121 (formulas by D8; their arithmetic reading is marked [derived]): ADD's sum, its
six flags as arithmetic facts, T and I kept, and its frame. -/
def Obligations.AddSumFlagsAndFrame : Prop :=
  ∀ (d r : Reg) (s : State), ∃ t, exec (.add d r) s = .next t ∧
    (t.readReg d).toNat = ((s.readReg d).toNat + (s.readReg r).toNat) % 256 ∧
    t.flag .c = decide (255 < (s.readReg d).toNat + (s.readReg r).toNat) ∧
    t.flag .h = decide (15 < (s.readReg d).toNat % 16 + (s.readReg r).toNat % 16) ∧
    t.flag .v = decide ((s.readReg d).toInt + (s.readReg r).toInt < -128 ∨
      127 < (s.readReg d).toInt + (s.readReg r).toInt) ∧
    resultFlagsHold (t.readReg d) t ∧ flagsKept [.t, .i] s t ∧ regResultFrame d s t

/-- `41_arithmetic.md` section 3, R122 (borrow polarity and formulas by D9; their arithmetic reading is marked
[derived]): SUB's difference, its six flags, T and I kept, and its frame. -/
def Obligations.SubDifferenceFlagsAndFrame : Prop :=
  ∀ (d r : Reg) (s : State), ∃ t, exec (.sub d r) s = .next t ∧
    (t.readReg d).toNat = ((s.readReg d).toNat + 256 - (s.readReg r).toNat) % 256 ∧
    t.flag .c = decide ((s.readReg d).toNat < (s.readReg r).toNat) ∧
    t.flag .h = decide ((s.readReg d).toNat % 16 < (s.readReg r).toNat % 16) ∧
    t.flag .v = decide ((s.readReg d).toInt - (s.readReg r).toInt < -128 ∨
      127 < (s.readReg d).toInt - (s.readReg r).toInt) ∧
    resultFlagsHold (t.readReg d) t ∧ flagsKept [.t, .i] s t ∧ regResultFrame d s t

/-- `41_arithmetic.md` section 1, R125 (marked [derived]): after SUB, C is the unsigned and S the signed comparison of
the operands, and Z their equality. -/
def Obligations.SubComparesSignedAndUnsigned : Prop :=
  ∀ (d r : Reg) (s : State), ∃ t, exec (.sub d r) s = .next t ∧
    (t.flag .c = true ↔ (s.readReg d).toNat < (s.readReg r).toNat) ∧
    (t.flag .s = true ↔ (s.readReg d).toInt < (s.readReg r).toInt) ∧
    (t.flag .z = true ↔ s.readReg d = s.readReg r)

/-- `41_arithmetic.md` section 4, R123 (sentinel by D10; C and H kept by D11): INC. -/
def Obligations.IncResultFlagsAndFrame : Prop :=
  ∀ (d : Reg) (s : State), ∃ t, exec (.inc d) s = .next t ∧
    (t.readReg d).toNat = ((s.readReg d).toNat + 1) % 256 ∧
    t.flag .v = decide ((t.readReg d).toNat = 0x80) ∧
    t.flag .v = decide (127 < (s.readReg d).toInt + 1) ∧
    resultFlagsHold (t.readReg d) t ∧ flagsKept [.c, .h, .t, .i] s t ∧ regResultFrame d s t

/-- `41_arithmetic.md` section 5, R124 (sentinel by D10; C and H kept by D11): DEC. -/
def Obligations.DecResultFlagsAndFrame : Prop :=
  ∀ (d : Reg) (s : State), ∃ t, exec (.dec d) s = .next t ∧
    (t.readReg d).toNat = ((s.readReg d).toNat + 255) % 256 ∧
    t.flag .v = decide ((t.readReg d).toNat = 0x7F) ∧
    t.flag .v = decide ((s.readReg d).toInt - 1 < -128) ∧
    resultFlagsHold (t.readReg d) t ∧ flagsKept [.c, .h, .t, .i] s t ∧ regResultFrame d s t

/-- `41_arithmetic.md` sections 2 and 3, corner cases, with R96 (general knowledge): ADD of a register to itself is a
left shift by one whose C, H and V are old bits; SUB of a register from itself clears it and leaves Z alone of the six
flags. -/
def Obligations.SameRegisterArithmetic : Prop :=
  ∀ (d : Reg) (s : State),
    (∃ t, exec (.add d d) s = .next t ∧ (t.readReg d).toNat = (s.readReg d).toNat * 2 % 256 ∧
      t.flag .c = (s.readReg d).getLsbD 7 ∧ t.flag .h = (s.readReg d).getLsbD 3 ∧
      t.flag .v = ((s.readReg d).getLsbD 7 ^^ (s.readReg d).getLsbD 6)) ∧
    ∃ t, exec (.sub d d) s = .next t ∧ t.readReg d = 0 ∧
      ∀ f ∈ [Flag.c, .z, .n, .v, .s, .h], t.flag f = decide (f = .z)

/-! ### Control transfer (`42_control_flow.md`) -/

/-- R141: RJMP sets `pc` to the relative target and changes nothing else. -/
def Obligations.RjmpSetsTheTarget : Prop :=
  (∀ (k : Offset) (s : State), ∃ t, exec (.rjmp k) s = .next t ∧
    (t.pc.toNat : Int) = ((s.pc.toNat : Int) + 2 + 2 * k.toInt) % 65536 ∧
    allRegsKept s t ∧ t.sreg = s.sreg ∧ t.sp = s.sp ∧ memoriesKept s t) ∧
  (∀ k : Offset, (encode (.rjmp k)).toNat = 0xC000 + k.toNat ∧ (k.toNat : Int) = k.toInt % 4096 ∧
    (-2048 ≤ k.toInt ∧ k.toInt ≤ 2047)) ∧
  ∀ w : Word, w &&& 0xF000 = 0xC000 ↔ ∃ k : Offset, decode w = .ok (.rjmp k) ∧ k.toNat = w.toNat % 4096

/-- R142 and R56: RCALL pushes the low byte of the address after the call at `sp` and then the high byte at the
decremented `sp`, clamping instead of failing, and goes to the relative target; the three corner cases of R142. -/
def Obligations.RcallPushesTheReturnAddress : Prop :=
  (∀ (k : Offset) (s : State), s.Inv → ∃ t, exec (.rcall k) s = .next t ∧
    (t.pc.toNat : Int) = ((s.pc.toNat : Int) + 2 + 2 * k.toInt) % 65536 ∧
    t.sp = spDec s.params (spDec s.params s.sp) ∧
    (t.dataByte (spDec s.params s.sp).toNat).toNat = (s.pc.toNat + 2) % 65536 / 256 ∧
    (spDec s.params s.sp ≠ s.sp → (t.dataByte s.sp.toNat).toNat = (s.pc.toNat + 2) % 256) ∧
    (∀ a, a ≠ s.sp.toNat → a ≠ (spDec s.params s.sp).toNat → t.dataByte a = s.dataByte a) ∧
    (∀ a, t.progByte a = s.progByte a) ∧ t.params = s.params ∧ allRegsKept s t ∧ t.sreg = s.sreg ∧
    (s.params.spMin.toNat + 2 ≤ s.sp.toNat →
      (spDec s.params s.sp).toNat = s.sp.toNat - 1 ∧ t.sp.toNat = s.sp.toNat - 2) ∧
    (s.params.spLowClamp = s.params.spMin → s.sp.toNat = s.params.spMin.toNat + 1 →
      spDec s.params s.sp = s.params.spMin ∧ t.sp = s.params.spMin) ∧
    (s.params.spLowClamp = s.params.spMin → s.sp = s.params.spMin →
      spDec s.params s.sp = s.params.spMin ∧ t.sp = s.params.spMin)) ∧
  (∀ k : Offset, (encode (.rcall k)).toNat = 0xD000 + k.toNat ∧ (k.toNat : Int) = k.toInt % 4096 ∧
    (-2048 ≤ k.toInt ∧ k.toInt ≤ 2047)) ∧
  ∀ w : Word, w &&& 0xF000 = 0xD000 ↔ ∃ k : Offset, decode w = .ok (.rcall k) ∧ k.toNat = w.toNat % 4096

/-- `42_control_flow.md` section 4, R143 (an address that is invalid is taken as it is by decision D15): RET pops the
high byte and then the low byte into `pc`, with the corner cases of an empty stack. -/
def Obligations.RetPopsThePc : Prop :=
  ∀ s : State, s.Inv → ∃ t, exec .ret s = .next t ∧
    t.pc.toNat = 256 * (s.dataByte (spInc s.params s.sp).toNat).toNat +
      (s.dataByte (spInc s.params (spInc s.params s.sp)).toNat).toNat ∧
    t.sp = spInc s.params (spInc s.params s.sp) ∧ t.sreg = s.sreg ∧ allRegsKept s t ∧ memoriesKept s t ∧
    (s.sp.toNat + 2 ≤ s.params.spMax.toNat →
      (spInc s.params s.sp).toNat = s.sp.toNat + 1 ∧ t.sp.toNat = s.sp.toNat + 2) ∧
    (s.params.spHighClamp = s.params.spMax → s.sp.toNat + 1 = s.params.spMax.toNat →
      spInc s.params s.sp = s.params.spMax ∧ t.sp = s.params.spMax) ∧
    (s.params.spHighClamp = s.params.spMax → s.sp = s.params.spMax →
      spInc s.params s.sp = s.params.spMax ∧ t.sp = s.params.spMax)

/-- `42_control_flow.md` section 5, R144: RETI is RET, and sets I and no other flag. -/
def Obligations.RetiIsRetAndSetsI : Prop :=
  ∀ s : State, s.Inv → ∃ t u, exec .ret s = .next u ∧ exec .reti s = .next t ∧
    t.pc = u.pc ∧ t.sp = u.sp ∧ allRegsKept s t ∧ memoriesKept s t ∧
    t.flag .i = true ∧ flagsKept [.c, .z, .n, .v, .s, .h, .t] s t

/-- `42_control_flow.md` section 1, R146 (marked [derived]): a RET from a state that has the call's `sp` and stack bytes
goes to the instruction after the call, with `sp` back at its value before the call. -/
def Obligations.ReturnUndoesTheCall : Prop :=
  ∀ (k : Offset) (s t u : State), s.Inv → s.params.spMin.toNat + 2 ≤ s.sp.toNat → exec (.rcall k) s = .next t →
    u.params = t.params → u.sp = t.sp → u.dataByte s.sp.toNat = t.dataByte s.sp.toNat →
    u.dataByte (s.sp.toNat - 1) = t.dataByte (s.sp.toNat - 1) →
    ∃ v, exec .ret u = .next v ∧ v.pc.toNat = (s.pc.toNat + 2) % 65536 ∧ v.sp = s.sp ∧ allRegsKept u v ∧ v.sreg = u.sreg

/-- `70_reset_and_hazards.md` section 5, R241 with R146 (both marked [derived]): as many nested calls as the stack has
room for, followed by as many returns, restore `sp`, the registers and SREG and end after the first call. -/
def Obligations.NestedCallsReturn : Prop :=
  ∀ (k : Offset) (ks : List Offset) (s : State), s.Inv →
    s.params.spMin.toNat + 2 * (ks.length + 1) ≤ s.sp.toNat →
    ∃ t u, execAll ((k :: ks).map .rcall) s = some t ∧ execAll (List.replicate (ks.length + 1) .ret) t = some u ∧
      u.pc.toNat = (s.pc.toNat + 2) % 65536 ∧ u.sp = s.sp ∧ u.regs = s.regs ∧ u.sreg = s.sreg

/-- `20_memory.md` section 4, R57 (default constants by decision D5): the stack pointer moves by one inside its range,
takes the clamp constant at the bound, and never leaves the range. -/
def Obligations.StackPointerMovesClampInRange : Prop :=
  ∀ (p : Params) (w : Word), p.Valid → p.InStack w →
    (w = p.spMin → spDec p w = p.spLowClamp) ∧ (p.spMin.toNat < w.toNat → (spDec p w).toNat = w.toNat - 1) ∧
    (w = p.spMax → spInc p w = p.spHighClamp) ∧ (w.toNat < p.spMax.toNat → (spInc p w).toNat = w.toNat + 1) ∧
    p.InStack (spDec p w) ∧ p.InStack (spInc p w)

/-- The model's choice of log entry 2 (R58 makes it unreachable): with a stack pointer outside data memory RCALL stops,
and RET and RETI stop where the byte they would read first is outside data memory. -/
def Obligations.StackAccessOutsideDataMemoryStops : Prop :=
  ∀ s : State,
    (s.params.dataSize ≤ s.sp.toNat → ∀ k, exec (.rcall k) s = .fault (.dataAddressOutOfRange s.sp)) ∧
    (s.params.dataSize ≤ (spInc s.params s.sp).toNat →
      exec .ret s = .fault (.dataAddressOutOfRange (spInc s.params s.sp)) ∧
      exec .reti s = .fault (.dataAddressOutOfRange (spInc s.params s.sp)))

/-- `70_reset_and_hazards.md` section 4, R243 (marked [derived]): from the idle loop every step succeeds and changes
nothing. -/
def Obligations.IdleLoopChangesNothing : Prop :=
  ∀ s : State, s.params.Valid → idleLoop s →
    step s = .next s ∧ ∀ n : Nat, serveAll s (List.replicate n .step) = s

/-- The model's end-of-run convention, which R243 asks for (D21, U22; the model's choice of log entry 10): a run ends at
the idle loop or at a fault state, never at both; steps requested after its end change nothing; and the run of at most n
steps ends in the state n requested steps leave. -/
def Obligations.RunsEndAtTheIdleLoopOrAFault : Prop :=
  ∀ s : State, s.params.Valid →
    (runStatus s = .idle ↔ idleLoop s) ∧ ((∃ f, runStatus s = .faulted f) ↔ faultState s) ∧
    ¬ (idleLoop s ∧ faultState s) ∧
    (runStatus s = .running ↔ (∃ t, step s = .next t) ∧ ¬ idleLoop s) ∧
    (runStatus s ≠ .running → ∀ n : Nat, serveAll s (List.replicate n .step) = s) ∧
    ∀ n : Nat, runFor n s =
      (serveAll s (List.replicate n .step), runStatus (serveAll s (List.replicate n .step)))

/-! ### Logical, shift and flag instructions (`43_logic_shift_flag.md`, general knowledge by decision D13) -/

/-- `43_logic_shift_flag.md` section 2: AND and OR, bit by bit, with their flags and frame; a register with itself is
kept and tested. -/
def Obligations.AndOrResultFlagsAndFrame : Prop :=
  ∀ (d r : Reg) (s : State),
    (∃ t, exec (.and d r) s = .next t ∧
      (∀ b < 8, (t.readReg d).getLsbD b = ((s.readReg d).getLsbD b && (s.readReg r).getLsbD b)) ∧
      (d = r → t.readReg d = s.readReg d) ∧
      t.flag .v = false ∧ resultFlagsHold (t.readReg d) t ∧ flagsKept [.c, .h, .t, .i] s t ∧ regResultFrame d s t) ∧
    ∃ t, exec (.or d r) s = .next t ∧
      (∀ b < 8, (t.readReg d).getLsbD b = ((s.readReg d).getLsbD b || (s.readReg r).getLsbD b)) ∧
      (d = r → t.readReg d = s.readReg d) ∧
      t.flag .v = false ∧ resultFlagsHold (t.readReg d) t ∧ flagsKept [.c, .h, .t, .i] s t ∧ regResultFrame d s t

/-- `43_logic_shift_flag.md` section 2: EOR, bit by bit, with its flags and frame; a register with itself is cleared. -/
def Obligations.EorResultFlagsAndFrame : Prop :=
  ∀ (d r : Reg) (s : State), ∃ t, exec (.eor d r) s = .next t ∧
    (∀ b < 8, (t.readReg d).getLsbD b = ((s.readReg d).getLsbD b ^^ (s.readReg r).getLsbD b)) ∧
    (d = r → t.readReg d = 0 ∧ t.flag .z = true ∧ t.flag .n = false ∧ t.flag .s = false) ∧
    t.flag .v = false ∧ resultFlagsHold (t.readReg d) t ∧ flagsKept [.c, .h, .t, .i] s t ∧ regResultFrame d s t

/-- `43_logic_shift_flag.md` section 2: COM is 255 minus the register, and sets C. -/
def Obligations.ComResultFlagsAndFrame : Prop :=
  ∀ (d : Reg) (s : State), ∃ t, exec (.com d) s = .next t ∧
    (t.readReg d).toNat = 255 - (s.readReg d).toNat ∧
    t.flag .v = false ∧ t.flag .c = true ∧ resultFlagsHold (t.readReg d) t ∧ flagsKept [.h, .t, .i] s t ∧
    regResultFrame d s t

/-- `43_logic_shift_flag.md` section 3: LSR halves the unsigned register; C is the bit shifted out, V and S equal it. -/
def Obligations.LsrHalvesUnsigned : Prop :=
  ∀ (d : Reg) (s : State), ∃ t, exec (.lsr d) s = .next t ∧
    (t.readReg d).toNat = (s.readReg d).toNat / 2 ∧
    t.flag .c = decide ((s.readReg d).toNat % 2 = 1) ∧ t.flag .n = false ∧
    t.flag .v = t.flag .c ∧ t.flag .s = t.flag .c ∧
    resultFlagsHold (t.readReg d) t ∧ flagsKept [.h, .t, .i] s t ∧ regResultFrame d s t

/-- `43_logic_shift_flag.md` section 3: ASR halves the signed register, rounding toward minus infinity; C is the bit
shifted out, V is N exclusive-or C, and S equals C. -/
def Obligations.AsrHalvesSigned : Prop :=
  ∀ (d : Reg) (s : State), ∃ t, exec (.asr d) s = .next t ∧
    (t.readReg d).toInt = (s.readReg d).toInt / 2 ∧
    t.flag .c = decide ((s.readReg d).toNat % 2 = 1) ∧
    t.flag .v = (t.flag .n ^^ t.flag .c) ∧ t.flag .s = t.flag .c ∧
    resultFlagsHold (t.readReg d) t ∧ flagsKept [.h, .t, .i] s t ∧ regResultFrame d s t

/-- `43_logic_shift_flag.md` section 3: ROR moves the old C into bit 7 and bit 0 into C; N is the old C. -/
def Obligations.RorRotatesThroughCarry : Prop :=
  ∀ (d : Reg) (s : State), ∃ t, exec (.ror d) s = .next t ∧
    (t.readReg d).toNat = (s.readReg d).toNat / 2 + (if s.flag .c then 128 else 0) ∧
    t.flag .c = decide ((s.readReg d).toNat % 2 = 1) ∧ t.flag .n = s.flag .c ∧
    t.flag .v = (t.flag .n ^^ t.flag .c) ∧ t.flag .s = t.flag .c ∧
    resultFlagsHold (t.readReg d) t ∧ flagsKept [.h, .t, .i] s t ∧ regResultFrame d s t

/-- `43_logic_shift_flag.md` section 3, corner case of ROR: the register and C form a 9-bit ring. -/
def Obligations.NineRorsRestoreRegisterAndCarry : Prop :=
  ∀ (d : Reg) (s : State), ∃ t, execAll (List.replicate 9 (.ror d)) s = some t ∧
    t.readReg d = s.readReg d ∧ t.flag .c = s.flag .c

/-- `43_logic_shift_flag.md` section 4: BSET sets and BCLR clears the flag whose bit number it names; each keeps the
other seven. -/
def Obligations.BsetAndBclrWriteOneFlag : Prop :=
  ∀ (b : FlagIndex) (s : State),
    (∃ t, exec (.bset b) s = .next t ∧ (∀ f, t.flag f = if flagBit f = b.toNat then true else s.flag f) ∧
      allRegsKept s t ∧ t.sp = s.sp ∧ memoriesKept s t ∧ t.pc.toNat = (s.pc.toNat + 2) % 65536) ∧
    ∃ t, exec (.bclr b) s = .next t ∧ (∀ f, t.flag f = if flagBit f = b.toNat then false else s.flag f) ∧
      allRegsKept s t ∧ t.sp = s.sp ∧ memoriesKept s t ∧ t.pc.toNat = (s.pc.toNat + 2) % 65536

/-! ### Host operations (`70_reset_and_hazards.md`) -/

/-- `70_reset_and_hazards.md` section 1, R232 (data memory unchanged is marked [derived]): `erase` zeroes program memory
and `pc` and touches nothing else. -/
def Obligations.EraseZeroesProgramMemoryAndPc : Prop :=
  ∀ s : State, (serve s .erase).error = none ∧ (∀ a, (serve s .erase).state.progByte a = 0) ∧
    (serve s .erase).state.pc = 0 ∧ allRegsKept s (serve s .erase).state ∧
    (serve s .erase).state.sreg = s.sreg ∧ (serve s .erase).state.sp = s.sp ∧
    (∀ a, (serve s .erase).state.dataByte a = s.dataByte a) ∧ (serve s .erase).state.params = s.params

/-- `70_reset_and_hazards.md` section 2, R233 (nothing else changes is marked [derived]): an image that fits is copied to
the start of program memory and nothing else changes; one that does not fit changes nothing. -/
def Obligations.FlatBinaryIsCopiedOrRefused : Prop :=
  ∀ (s : State) (bytes : List Byte), Memory.wf s.progMem →
    (bytes.length ≤ s.params.progSize →
      (serve s (.loadFlatBinary bytes)).error = none ∧
      (∀ (j : Nat) (h : j < bytes.length), (serve s (.loadFlatBinary bytes)).state.progByte j = bytes[j]) ∧
      (∀ j, bytes.length ≤ j → (serve s (.loadFlatBinary bytes)).state.progByte j = s.progByte j) ∧
      { (serve s (.loadFlatBinary bytes)).state with progMem := s.progMem } = s) ∧
    (s.params.progSize < bytes.length →
      serve s (.loadFlatBinary bytes) = { state := s, error := some (.load .capacityExceeded) })

/-- R234: `loadFromVector` erases, then loads as `loadFlatBinary` does; an oversize image fails and leaves the state
erased. -/
def Obligations.VectorLoadErasesFirst : Prop :=
  ∀ (s : State) (bytes : List Byte),
    (serve s (.loadFromVector bytes) = serve (serve s .erase).state (.loadFlatBinary bytes)) ∧
    (serve s (.loadFromVector bytes)).state.pc = 0 ∧
    (bytes.length ≤ s.params.progSize →
      (serve s (.loadFromVector bytes)).error = none ∧
      (∀ (j : Nat) (h : j < bytes.length), (serve s (.loadFromVector bytes)).state.progByte j = bytes[j]) ∧
      ∀ j, bytes.length ≤ j → (serve s (.loadFromVector bytes)).state.progByte j = 0) ∧
    (s.params.progSize < bytes.length →
      (serve s (.loadFromVector bytes)).error = some (.load .capacityExceeded) ∧
      ∀ j, (serve s (.loadFromVector bytes)).state.progByte j = 0)

/-- `70_reset_and_hazards.md` section 2, R235 and R238 (details by decision D20, general knowledge): what one line of a
hex text parses to (the record marker, pairs of hex digits of either case, the byte count, the address high byte first,
the type, the data, a checksum of any value), and what it does to program memory and to the rest of the load. -/
def Obligations.HexLinesAreSkippedPlacedOrEndTheLoad : Prop :=
  (∀ (c : Char) (x : Nat), hexDigit c = some x ↔
    ['0', '1', '2', '3', '4', '5', '6', '7', '8', '9', 'a', 'b', 'c', 'd', 'e', 'f'][x]? = some c ∨
    ['0', '1', '2', '3', '4', '5', '6', '7', '8', '9', 'A', 'B', 'C', 'D', 'E', 'F'][x]? = some c) ∧
  (∀ (cs : List Char) (bs : List Byte), hexBytes cs = some bs ↔ cs.length = 2 * bs.length ∧
    ∀ j < bs.length, ∃ c c' x y, cs[2 * j]? = some c ∧ cs[2 * j + 1]? = some c' ∧
      hexDigit c = some x ∧ hexDigit c' = some y ∧ bs[j]? = some (BitVec.ofNat 8 (16 * x + y))) ∧
  (∀ cs : List Char, stripMarker (':' :: cs) = cs) ∧
  (∀ cs : List Char, cs.head? ≠ some ':' → stripMarker cs = cs) ∧
  (∀ (l : List Char) (r : HexRecord), parseRecord l = .ok r ↔
    ∃ (n hi lo : Byte) (checksum : Byte), r.data.length = n.toNat ∧ r.addr = 256 * hi.toNat + lo.toNat ∧
      hexBytes (stripMarker l) = some ([n, hi, lo, r.recType] ++ r.data ++ [checksum])) ∧
  (∀ l : List Char, (∃ r, parseRecord l = .ok r) ∨ parseRecord l = .error .malformedRecord) ∧
  ∀ (size : Nat) (m : Memory) (l : List Char) (ls : List (List Char)), Memory.wf m →
    placeLines size m [] = (m, none) ∧
    (parseRecord l = .error .malformedRecord → placeLines size m (l :: ls) = placeLines size m ls) ∧
    ∀ r, parseRecord l = .ok r →
      (r.recType = 0 → r.addr + r.data.length ≤ size →
        ∃ m', placeLines size m (l :: ls) = placeLines size m' ls ∧ Memory.wf m' ∧
          (∀ (j : Nat) (h : j < r.data.length), Memory.read m' (r.addr + j) = r.data[j]) ∧
          ∀ a, a < r.addr ∨ r.addr + r.data.length ≤ a → Memory.read m' a = Memory.read m a) ∧
      (r.recType = 0 → size < r.addr + r.data.length →
        placeLines size m (l :: ls) = (m, some .addressOutOfRange)) ∧
      (r.recType = 1 → placeLines size m (l :: ls) = (m, none)) ∧
      (r.recType ≠ 0 → r.recType ≠ 1 → placeLines size m (l :: ls) = (m, some .unsupportedRecordType))

/-- `70_reset_and_hazards.md` section 2: a hex load cuts its text into lines at line feeds, with an optional carriage
return before each (R235, D20; what follows the last line feed is a line by the model's choice of log entry 7), places
them in order, and touches program memory alone; R237 (marked [derived]): loading the same text twice with an erase
between gives identical program memory. -/
def Obligations.HexLoadIsIdempotentAfterErase : Prop :=
  (∀ l : List Char, '\n' ∉ l → textLines l = [l]) ∧
  (∀ l rest : List Char, '\n' ∉ l → l.getLast? ≠ some '\r' → textLines (l ++ '\n' :: rest) = l :: textLines rest) ∧
  (∀ l rest : List Char, '\n' ∉ l → textLines (l ++ '\r' :: '\n' :: rest) = l :: textLines rest) ∧
  ∀ (s : State) (text : List Char),
    serve s (.loadHexRecords text) =
      { state := { s with progMem := (placeLines s.params.progSize s.progMem (textLines text)).1 },
        error := (placeLines s.params.progSize s.progMem (textLines text)).2.map .load } ∧
    { (serve s (.loadHexRecords text)).state with progMem := s.progMem } = s ∧
    (serve (serve (serve (serve s .erase).state (.loadHexRecords text)).state .erase).state
      (.loadHexRecords text)).state.progMem = (serve (serve s .erase).state (.loadHexRecords text)).state.progMem

/-- `30_encoding.md` section 5, R100 (invalid `pc` by decision D18): the display query shows the decoded instruction,
and NOP when the opcode is unknown or `pc` is invalid; EXECUTABLE does not matter to it. -/
def Obligations.DisplayShowsTheInstructionOrNop : Prop :=
  ∀ s : State,
    (pcValid s = true → ∀ i, decode (opcodeAt s) = .ok i → getInstructionMnemonic s = instrText i) ∧
    (pcValid s = true → ∀ w, decode (opcodeAt s) = .error (.unknownOpcode w) → getInstructionMnemonic s = "NOP") ∧
    (pcValid s = false → getInstructionMnemonic s = "NOP")
end

