-- ==== Sys2Proof/Laws/Flags.lean ====
section
/-! SUPPORT. SREG: writing one flag and reading any, and what the shared result flags are. -/

namespace Sys2Proof.Machine

theorem flagBit_lt (f : Flag) : flagBit f < 8 := by cases f <;> decide

theorem flagBit_inj {f g : Flag} (h : flagBit f = flagBit g) : f = g := by
  revert h; cases f <;> cases g <;> decide

theorem getLsbD_setSregBit (sreg : Byte) {b c : Nat} (hc : c < 8) :
    (setSregBit sreg b).getLsbD c = (sreg.getLsbD c || decide (c = b)) := by
  simp only [setSregBit, BitVec.getLsbD_or, BitVec.getLsbD_shiftLeft, BitVec.getLsbD_one]
  congr 1
  by_cases h : c = b
  · simp [h ▸ hc, h]
  · rcases Nat.lt_or_gt_of_ne h with h' | h'
    · simp [h', h]
    · simp [h, Nat.sub_eq_zero_iff_le]; omega

theorem getLsbD_clearSregBit (sreg : Byte) {b c : Nat} (hc : c < 8) :
    (clearSregBit sreg b).getLsbD c = (sreg.getLsbD c && !decide (c = b)) := by
  have h := getLsbD_setSregBit 0#8 (b := b) hc
  simp only [setSregBit, BitVec.getLsbD_or, BitVec.getLsbD_zero, Bool.false_or] at h
  simp only [clearSregBit, BitVec.getLsbD_and, BitVec.getLsbD_not, h, hc, decide_true, Bool.true_and]

/-- A flag reads as what was last written to it; writing one flag keeps the others. -/
theorem getFlag_putFlag (sreg : Byte) (f g : Flag) (b : Bool) :
    getFlag (putFlag sreg f b) g = if g = f then b else getFlag sreg g := by
  have hg := flagBit_lt g
  have e : flagBit g = flagBit f ↔ g = f := ⟨flagBit_inj, fun h => by rw [h]⟩
  unfold getFlag putFlag
  cases b
  · rw [if_neg (by decide), getLsbD_clearSregBit _ hg]
    by_cases h : g = f <;> simp only [e, h, decide_true, decide_false, Bool.not_true, Bool.not_false, Bool.and_true,
      Bool.and_false, if_true, if_false]
  · rw [if_pos rfl, getLsbD_setSregBit _ hg]
    by_cases h : g = f <;> simp only [e, h, decide_true, decide_false, Bool.or_true, Bool.or_false, if_true, if_false]

@[simp] theorem getFlag_putFlag_same (sreg : Byte) (f : Flag) (b : Bool) : getFlag (putFlag sreg f b) f = b := by
  simp [getFlag_putFlag]

theorem getFlag_putFlag_other (sreg : Byte) {f g : Flag} (h : g ≠ f) (b : Bool) :
    getFlag (putFlag sreg f b) g = getFlag sreg g := by
  simp [getFlag_putFlag, h]

/-- The four result flags, and that C, H, T, I are kept. -/
theorem getFlag_putResultFlags (sreg r : Byte) (v : Bool) (g : Flag) :
    getFlag (putResultFlags sreg r v) g =
      match g with
      | .n => r.getLsbD 7
      | .z => r == 0
      | .v => v
      | .s => r.getLsbD 7 ^^ v
      | .c => getFlag sreg .c
      | .h => getFlag sreg .h
      | .t => getFlag sreg .t
      | .i => getFlag sreg .i := by
  cases g <;> simp [putResultFlags, getFlag_putFlag]

/-- N as a fact about the byte: bit 7 is set from 128 on. -/
theorem getLsbD_seven (r : Byte) : r.getLsbD 7 = decide (128 ≤ r.toNat) := by
  have := r.isLt
  simp only [BitVec.getLsbD, Nat.testBit, Nat.shiftRight_eq_div_pow]
  rw [show r.toNat / 2 ^ 7 = if 128 ≤ r.toNat then 1 else 0 by split <;> omega]
  split <;> simp [*]

theorem beq_zero_iff_toNat (r : Byte) : (r == 0) = decide (r.toNat = 0) := by
  rw [Bool.eq_iff_iff]
  simp [BitVec.toNat_eq]

end Sys2Proof.Machine
end

