-- ==== Sys2Proof/Laws/Memory.lean ====
section
/-! SUPPORT. Byte memories: reading after a write, and that every memory operation keeps the canonical form and the
capacity. -/

namespace Sys2Proof.Machine

@[simp] theorem Memory.read_nil (a : Nat) : Memory.read [] a = Memory.unlisted := rfl

theorem Memory.nil_wf : Memory.wf [] := ⟨List.Pairwise.nil, fun _ h => absurd h List.not_mem_nil⟩

theorem Memory.nil_within (n : Nat) : Memory.within [] n := fun _ h => absurd h List.not_mem_nil

/-- An address below every listed one reads as the unlisted byte. -/
theorem Memory.read_of_below (m : Memory) (a : Nat) (h : ∀ x ∈ m, a < x.1) : Memory.read m a = Memory.unlisted := by
  induction m with
  | nil => rfl
  | cons x m ih =>
    have hx := h x List.mem_cons_self
    simp only [Memory.read]
    rw [if_neg (by omega)]
    exact ih fun y hy => h y (List.mem_cons_of_mem x hy)

theorem Memory.read_cons_other {a b : Nat} (h : a ≠ b) (v : Byte) (m : Memory) :
    Memory.read (Memory.cons b v m) a = Memory.read m a := by
  unfold Memory.cons
  split <;> simp [Memory.read, h]

theorem Memory.read_cons_same (a : Nat) (v : Byte) (m : Memory) (h : ∀ x ∈ m, a < x.1) :
    Memory.read (Memory.cons a v m) a = v := by
  unfold Memory.cons
  split
  · rename_i e; rw [Memory.read_of_below m a h, e]
  · simp [Memory.read]

/-- A write leaves every other address alone, in any memory. -/
theorem Memory.read_write_other {a b : Nat} (h : a ≠ b) (m : Memory) (v : Byte) :
    Memory.read (Memory.write m b v) a = Memory.read m a := by
  induction m with
  | nil => exact Memory.read_cons_other h v []
  | cons x m ih =>
    simp only [Memory.write]
    split
    · exact Memory.read_cons_other h v _
    · split
      · rename_i e
        rw [Memory.read_cons_other h]
        simp [Memory.read, ← e, h]
      · simp [Memory.read, ih]

/-- A byte reads as what was last written, in a memory in canonical form. -/
theorem Memory.read_write_same (m : Memory) (hm : Memory.wf m) (a : Nat) (v : Byte) :
    Memory.read (Memory.write m a v) a = v := by
  induction m with
  | nil => exact Memory.read_cons_same a v [] (by simp)
  | cons x m ih =>
    obtain ⟨hp, hd⟩ := hm
    obtain ⟨hx, hp'⟩ := List.pairwise_cons.mp hp
    simp only [Memory.write]
    split
    · rename_i hlt
      refine Memory.read_cons_same a v _ fun y hy => ?_
      rcases List.mem_cons.mp hy with rfl | hy
      · exact hlt
      · exact hlt.trans (hx y hy)
    · split
      · rename_i e
        exact Memory.read_cons_same a v m fun y hy => e ▸ hx y hy
      · rename_i hne
        simp only [Memory.read, if_neg hne]
        exact ih ⟨hp', fun y hy => hd y (List.mem_cons_of_mem _ hy)⟩

/-- What a write lists is what was listed, or the cell written. -/
theorem Memory.mem_write {x : Host.Cell} {m : Memory} {a : Nat} {v : Byte} (h : x ∈ Memory.write m a v) :
    x ∈ m ∨ (x = (a, v) ∧ v ≠ Memory.unlisted) := by
  have hcons : ∀ l : Memory, x ∈ Memory.cons a v l → x ∈ l ∨ (x = (a, v) ∧ v ≠ Memory.unlisted) := by
    intro l hl
    unfold Memory.cons at hl
    split at hl
    · exact .inl hl
    · rename_i hv
      rcases List.mem_cons.mp hl with rfl | hl
      · exact .inr ⟨rfl, hv⟩
      · exact .inl hl
  induction m with
  | nil => exact hcons [] h
  | cons y m ih =>
    simp only [Memory.write] at h
    split at h
    · exact hcons _ h
    · split at h
      · exact (hcons _ h).imp_left (List.mem_cons_of_mem y)
      · rcases List.mem_cons.mp h with rfl | h
        · exact .inl List.mem_cons_self
        · exact (ih h).imp_left (List.mem_cons_of_mem y)

theorem Memory.cons_wf {m : Memory} (hm : Memory.wf m) (a : Nat) (v : Byte) (h : ∀ x ∈ m, a < x.1) :
    Memory.wf (Memory.cons a v m) := by
  unfold Memory.cons
  split
  · exact hm
  · rename_i hv
    refine ⟨List.pairwise_cons.mpr ⟨h, hm.1⟩, fun x hx => ?_⟩
    rcases List.mem_cons.mp hx with rfl | hx
    · exact hv
    · exact hm.2 x hx

/-- A write keeps the canonical form. -/
theorem Memory.write_wf {m : Memory} (hm : Memory.wf m) (a : Nat) (v : Byte) : Memory.wf (Memory.write m a v) := by
  induction m with
  | nil => exact Memory.cons_wf hm a v (by simp)
  | cons x m ih =>
    obtain ⟨hx, hp⟩ := List.pairwise_cons.mp hm.1
    have hm' : Memory.wf m := ⟨hp, fun y hy => hm.2 y (List.mem_cons_of_mem _ hy)⟩
    simp only [Memory.write]
    split
    · rename_i hlt
      refine Memory.cons_wf hm a v fun y hy => ?_
      rcases List.mem_cons.mp hy with rfl | hy
      · exact hlt
      · exact hlt.trans (hx y hy)
    · split
      · rename_i e
        exact Memory.cons_wf hm' a v fun y hy => e ▸ hx y hy
      · rename_i hnlt hne
        refine ⟨List.pairwise_cons.mpr ⟨fun y hy => ?_, (ih hm').1⟩, fun y hy => ?_⟩
        · rcases Memory.mem_write hy with hy | ⟨rfl, -⟩
          · exact hx y hy
          · exact lt_of_le_of_ne (not_lt.mp hnlt) fun e => hne e.symm
        · rcases List.mem_cons.mp hy with rfl | hy
          · exact hm.2 _ List.mem_cons_self
          · exact (ih hm').2 y hy

/-- A write inside the capacity keeps the capacity. -/
theorem Memory.write_within {m : Memory} {n a : Nat} (hm : Memory.within m n) (ha : a < n) (v : Byte) :
    Memory.within (Memory.write m a v) n := by
  intro x hx
  rcases Memory.mem_write hx with hx | ⟨rfl, -⟩
  · exact hm x hx
  · exact ha

theorem Memory.writeBytes_wf {m : Memory} (hm : Memory.wf m) (a : Nat) (vs : List Byte) :
    Memory.wf (Memory.writeBytes m a vs) := by
  induction vs generalizing m a with
  | nil => exact hm
  | cons v vs ih => exact ih (Memory.write_wf hm a v) (a + 1)

theorem Memory.writeBytes_within {m : Memory} {n a : Nat} (hm : Memory.within m n) (vs : List Byte)
    (h : a + vs.length ≤ n) : Memory.within (Memory.writeBytes m a vs) n := by
  induction vs generalizing m a with
  | nil => exact hm
  | cons v vs ih =>
    simp only [List.length_cons] at h
    exact ih (Memory.write_within hm (by omega) v) (by omega)

/-- A run of writes leaves every address outside it alone. -/
theorem Memory.read_writeBytes_other (m : Memory) (a b : Nat) (vs : List Byte) (h : b < a ∨ a + vs.length ≤ b) :
    Memory.read (Memory.writeBytes m a vs) b = Memory.read m b := by
  induction vs generalizing m a with
  | nil => rfl
  | cons v vs ih =>
    simp only [List.length_cons] at h
    rw [Memory.writeBytes, ih _ _ (by omega), Memory.read_write_other (by omega)]

/-- A run of writes puts its i-th byte at its i-th address. -/
theorem Memory.read_writeBytes_at (m : Memory) (hm : Memory.wf m) (a i : Nat) (vs : List Byte) (h : i < vs.length) :
    Memory.read (Memory.writeBytes m a vs) (a + i) = vs[i] := by
  induction vs generalizing m a i with
  | nil => exact absurd h (by simp)
  | cons v vs ih =>
    rw [Memory.writeBytes]
    cases i with
    | zero =>
      rw [Memory.read_writeBytes_other _ _ _ _ (by omega)]
      exact Memory.read_write_same m hm a v
    | succ i =>
      have := ih (Memory.write m a v) (Memory.write_wf hm a v) (a + 1) i (by simpa using h)
      rw [show a + (i + 1) = a + 1 + i by omega, this]
      rfl

/-- Placing hex records keeps the canonical form and the capacity. -/
theorem placeLines_keeps {size : Nat} {m : Memory} (hm : Memory.wf m ∧ Memory.within m size) (ls : List (List Char)) :
    Memory.wf (placeLines size m ls).1 ∧ Memory.within (placeLines size m ls).1 size := by
  induction ls generalizing m with
  | nil => exact hm
  | cons l ls ih =>
    rw [placeLines]
    split
    · exact ih hm
    · split
      · split
        · exact ih ⟨Memory.writeBytes_wf hm.1 _ _, Memory.writeBytes_within hm.2 _ ‹_›⟩
        · exact hm
      · split <;> exact hm

end Sys2Proof.Machine
end

