-- ==== Sys2Proof/Laws/State.lean ====
section
/-! SUPPORT. The small lemmas of State: one per field per named update, and reading a register after writing one. -/

namespace Sys2Proof.Machine

variable (s : State) (d q : Reg) (v : Byte)

@[simp] theorem State.writeReg_sreg : (s.writeReg d v).sreg = s.sreg := rfl
@[simp] theorem State.writeReg_pc : (s.writeReg d v).pc = s.pc := rfl
@[simp] theorem State.writeReg_sp : (s.writeReg d v).sp = s.sp := rfl
@[simp] theorem State.writeReg_progMem : (s.writeReg d v).progMem = s.progMem := rfl
@[simp] theorem State.writeReg_dataMem : (s.writeReg d v).dataMem = s.dataMem := rfl
@[simp] theorem State.writeReg_params : (s.writeReg d v).params = s.params := rfl

@[simp] theorem State.advance_regs : s.advance.regs = s.regs := rfl
@[simp] theorem State.advance_sreg : s.advance.sreg = s.sreg := rfl
@[simp] theorem State.advance_pc : s.advance.pc = s.pc + 2 := rfl
@[simp] theorem State.advance_sp : s.advance.sp = s.sp := rfl
@[simp] theorem State.advance_progMem : s.advance.progMem = s.progMem := rfl
@[simp] theorem State.advance_dataMem : s.advance.dataMem = s.dataMem := rfl
@[simp] theorem State.advance_params : s.advance.params = s.params := rfl

@[simp] theorem erase_regs : (erase s).regs = s.regs := rfl
@[simp] theorem erase_sreg : (erase s).sreg = s.sreg := rfl
@[simp] theorem erase_pc : (erase s).pc = 0 := rfl
@[simp] theorem erase_sp : (erase s).sp = s.sp := rfl
@[simp] theorem erase_progMem : (erase s).progMem = [] := rfl
@[simp] theorem erase_dataMem : (erase s).dataMem = s.dataMem := rfl
@[simp] theorem erase_params : (erase s).params = s.params := rfl

variable (p : Params)

@[simp] theorem State.initial_sreg : (State.initial p).sreg = 0 := rfl
@[simp] theorem State.initial_pc : (State.initial p).pc = 0 := rfl
@[simp] theorem State.initial_sp : (State.initial p).sp = p.spTop := rfl
@[simp] theorem State.initial_progMem : (State.initial p).progMem = [] := rfl
@[simp] theorem State.initial_dataMem : (State.initial p).dataMem = [] := rfl
@[simp] theorem State.initial_params : (State.initial p).params = p := rfl

@[simp] theorem State.initial_readReg : (State.initial p).readReg d = 0 := by
  simp [State.readReg, State.initial]

/-- A register reads as what was last written to it. -/
@[simp] theorem State.readReg_writeReg_same : (s.writeReg d v).readReg d = v := by
  simp [State.readReg, State.writeReg]

/-- Writing a register leaves every other register alone. -/
theorem State.readReg_writeReg_other {d q : Reg} (h : q ≠ d) : (s.writeReg d v).readReg q = s.readReg q := by
  have h' : d.val ≠ q.val := fun e => h (Fin.ext e.symm)
  simp [State.readReg, State.writeReg, Vector.getElem_set_ne, h']

/-- Reading depends on the register file alone. -/
theorem State.readReg_congr {s t : State} (h : t.regs = s.regs) (q : Reg) : t.readReg q = s.readReg q := by
  simp [State.readReg, h]

end Sys2Proof.Machine
end

