-- ==== Sys2Proof/Laws/Ops.lean ====
section
/-! SUPPORT. What each shared operation can do, said once: the stack, fetch, exec and step. -/

namespace Sys2Proof.Machine

/-! ### The stack -/

/-- Above the lower bound a decrement is by one. -/
theorem spDec_toNat {p : Params} {w : Word} (h : p.spMin.toNat < w.toNat) : (spDec p w).toNat = w.toNat - 1 := by
  unfold spDec
  rw [if_neg (by omega), BitVec.toNat_sub_of_le (by rw [BitVec.le_def]; simp; omega)]
  rfl

/-- Below the upper bound an increment is by one. -/
theorem spInc_toNat {p : Params} {w : Word} (h : w.toNat < p.spMax.toNat) : (spInc p w).toNat = w.toNat + 1 := by
  have := p.spMax.isLt
  unfold spInc
  rw [if_neg (by omega), BitVec.toNat_add, Nat.mod_eq_of_lt] <;> (simp; try omega)

/-- A decrement stays in the stack range (R57 under R10). -/
theorem spDec_inStack {p : Params} (hp : p.Valid) {w : Word} (hw : p.InStack w) : p.InStack (spDec p w) := by
  obtain ⟨-, -, -, -, hlow, -, -⟩ := hp
  obtain ⟨h1, h2⟩ := hw
  by_cases h : p.spMin.toNat < w.toNat
  · have := spDec_toNat h
    exact ⟨by omega, by omega⟩
  · rw [spDec, if_pos (by omega)]
    exact hlow

/-- An increment stays in the stack range (R57 under R10). -/
theorem spInc_inStack {p : Params} (hp : p.Valid) {w : Word} (hw : p.InStack w) : p.InStack (spInc p w) := by
  obtain ⟨-, -, -, -, -, hhigh, -⟩ := hp
  obtain ⟨h1, h2⟩ := hw
  by_cases h : w.toNat < p.spMax.toNat
  · have := spInc_toNat h
    exact ⟨by omega, by omega⟩
  · rw [spInc, if_pos (by omega)]
    exact hhigh

/-- A stack address is inside data memory (R58). -/
theorem inStack_lt_dataSize {p : Params} (hp : p.Valid) {w : Word} (hw : p.InStack w) : w.toNat < p.dataSize :=
  lt_of_le_of_lt hw.2 hp.2.2.1.2

/-- The state Push leaves when its address is inside data memory (R54). -/
def afterPush (s : State) (v : Byte) : State :=
  { s with dataMem := Memory.write s.dataMem s.sp.toNat v, sp := spDec s.params s.sp }

/-- Push, once for all: it succeeds exactly when `sp` addresses data memory. -/
theorem push_eq (s : State) (v : Byte) :
    push s v = if s.sp.toNat < s.params.dataSize then .ok (afterPush s v) else .error (.dataAddressOutOfRange s.sp) := by
  unfold push storeData
  by_cases h : s.sp.toNat < s.params.dataSize <;> simp [h, afterPush]

/-- Pop, once for all: it succeeds exactly when the incremented `sp` addresses data memory (R55). -/
theorem pop_eq (s : State) :
    pop s = if (spInc s.params s.sp).toNat < s.params.dataSize
      then .ok (s.dataByte (spInc s.params s.sp).toNat, { s with sp := spInc s.params s.sp })
      else .error (.dataAddressOutOfRange (spInc s.params s.sp)) := by
  unfold pop loadData
  by_cases h : (spInc s.params s.sp).toNat < s.params.dataSize <;> simp [h]

/-- The two pushes of a call succeed from a stack pointer in range, with valid parameters (R58). -/
theorem pushWord_ok {s : State} (hp : s.params.Valid) (hs : s.params.InStack s.sp) (w : Word) :
    pushWord s w = .ok (afterPush (afterPush s (lowByte w)) (highByte w)) := by
  have h1 := inStack_lt_dataSize hp hs
  have h2 := inStack_lt_dataSize hp (spDec_inStack hp hs)
  unfold pushWord
  rw [push_eq, if_pos h1]
  simp only []
  rw [push_eq, if_pos (by exact h2)]

/-- The two pops of a return succeed from a stack pointer in range, with valid parameters (R58). -/
theorem popWord_ok {s : State} (hp : s.params.Valid) (hs : s.params.InStack s.sp) :
    popWord s = .ok (wordOfBytes (s.dataByte (spInc s.params (spInc s.params s.sp)).toNat)
        (s.dataByte (spInc s.params s.sp).toNat),
      { s with sp := spInc s.params (spInc s.params s.sp) }) := by
  have h1 := inStack_lt_dataSize hp (spInc_inStack hp hs)
  have h2 := inStack_lt_dataSize hp (spInc_inStack hp (spInc_inStack hp hs))
  unfold popWord
  rw [pop_eq, if_pos h1]
  simp only []
  rw [pop_eq, if_pos (by exact h2)]
  rfl

/-- A push keeps everything but the byte at `sp` and `sp` itself, whatever the state. -/
theorem push_next {s t : State} {v : Byte} (h : push s v = .ok t) :
    s.sp.toNat < s.params.dataSize ∧ t = afterPush s v := by
  rw [push_eq] at h
  split at h
  · cases h; exact ⟨‹_›, rfl⟩
  · cases h

/-- A pop changes nothing but `sp`, whatever the state. -/
theorem pop_next {s t : State} {v : Byte} (h : pop s = .ok (v, t)) :
    v = s.dataByte (spInc s.params s.sp).toNat ∧ t = { s with sp := spInc s.params s.sp } := by
  rw [pop_eq] at h
  split at h
  · cases h; exact ⟨rfl, rfl⟩
  · cases h

/-- A push fails only with the model's own fault. -/
theorem push_error {s : State} {v : Byte} {f : Fault} (h : push s v = .error f) :
    ∃ a, f = .dataAddressOutOfRange a := by
  rw [push_eq] at h
  split at h
  · cases h
  · cases h; exact ⟨_, rfl⟩

/-- A pop fails only with the model's own fault. -/
theorem pop_error {s : State} {f : Fault} (h : pop s = .error f) : ∃ a, f = .dataAddressOutOfRange a := by
  rw [pop_eq] at h
  split at h
  · cases h
  · cases h; exact ⟨_, rfl⟩

/-- Two pushes, whatever the state: if they succeed, where they stored. -/
theorem pushWord_next {s t : State} {w : Word} (h : pushWord s w = .ok t) :
    s.sp.toNat < s.params.dataSize ∧ (spDec s.params s.sp).toNat < s.params.dataSize ∧
      t = afterPush (afterPush s (lowByte w)) (highByte w) := by
  unfold pushWord at h
  split at h
  · rename_i u hu
    obtain ⟨h1, rfl⟩ := push_next hu
    obtain ⟨h2, rfl⟩ := push_next h
    exact ⟨h1, h2, rfl⟩
  · cases h

/-- Two pops, whatever the state: if they succeed, only `sp` changed. -/
theorem popWord_next {s t : State} {w : Word} (h : popWord s = .ok (w, t)) :
    t = { s with sp := spInc s.params (spInc s.params s.sp) } := by
  unfold popWord at h
  split at h
  · rename_i hi u hu
    obtain ⟨-, rfl⟩ := pop_next hu
    split at h
    · rename_i lo v hv
      obtain ⟨-, rfl⟩ := pop_next hv
      cases h; rfl
    · cases h
  · cases h

/-! ### exec -/

/-- Everything `exec` can leave, field by field, whatever the instruction: program memory and the parameters stand;
data memory and `sp` move only as two pushes or two pops move them. -/
theorem exec_next_cases {i : Instr} {s t : State} (h : exec i s = .next t) :
    t.progMem = s.progMem ∧ t.params = s.params ∧
      ((t.dataMem = s.dataMem ∧ t.sp = s.sp) ∨
       (t.dataMem = s.dataMem ∧ t.sp = spInc s.params (spInc s.params s.sp)) ∨
       (s.sp.toNat < s.params.dataSize ∧ (spDec s.params s.sp).toNat < s.params.dataSize ∧
        t.sp = spDec s.params (spDec s.params s.sp) ∧
        ∃ w, t.dataMem = Memory.write (Memory.write s.dataMem s.sp.toNat (lowByte w))
          (spDec s.params s.sp).toNat (highByte w))) := by
  cases i with
  | rcall k =>
    simp only [exec, execRcall] at h
    split at h
    · rename_i u hu
      obtain ⟨h1, h2, rfl⟩ := pushWord_next hu
      cases h
      exact ⟨rfl, rfl, .inr (.inr ⟨h1, h2, rfl, _, rfl⟩)⟩
    · cases h
  | ret =>
    simp only [exec, execRet] at h
    split at h
    · rename_i w u hu
      obtain rfl := popWord_next hu
      cases h
      exact ⟨rfl, rfl, .inr (.inl ⟨rfl, rfl⟩)⟩
    · cases h
  | reti =>
    simp only [exec, execReti] at h
    split at h
    · rename_i w u hu
      obtain rfl := popWord_next hu
      cases h
      exact ⟨rfl, rfl, .inr (.inl ⟨rfl, rfl⟩)⟩
    · cases h
  | _ => cases h; exact ⟨rfl, rfl, .inl ⟨rfl, rfl⟩⟩

/-- Instructions executed in a row are the first ones and then the rest. -/
theorem execAll_append (is js : List Instr) (s : State) :
    execAll (is ++ js) s = (execAll is s).bind (execAll js) := by
  induction is generalizing s with
  | nil => rfl
  | cons i is ih =>
    simp only [List.cons_append, execAll]
    cases exec i s <;> simp [ih]

/-! ### step -/

/-- Everything a step can answer. -/
theorem step_cases (s : State) :
    (¬ s.params.Valid ∧ step s = .refused .parametersOutOfRange) ∨
    (s.params.Valid ∧ ∃ f, fetchInstr s = .error f ∧ step s = .fault f) ∨
    (s.params.Valid ∧ ∃ i, fetchInstr s = .ok i ∧ step s = exec i s) := by
  unfold step
  by_cases hp : s.params.Valid
  · rw [if_pos hp]
    cases h : fetchInstr s with
    | ok i => exact .inr (.inr ⟨hp, i, rfl, rfl⟩)
    | error f => exact .inr (.inl ⟨hp, f, rfl, rfl⟩)
  · rw [if_neg hp]; exact .inl ⟨hp, rfl⟩

/-- A step that answers a next state executed the instruction it fetched. -/
theorem step_next {s t : State} (h : step s = .next t) :
    s.params.Valid ∧ ∃ i, fetchInstr s = .ok i ∧ exec i s = .next t := by
  obtain ⟨-, e⟩ | ⟨-, f, -, e⟩ | ⟨hp, i, hi, e⟩ := step_cases s
  · rw [e] at h; cases h
  · rw [e] at h; cases h
  · exact ⟨hp, i, hi, e ▸ h⟩

/-- What a successful fetch says of the state (R240). -/
theorem fetchInstr_ok {s : State} {i : Instr} (h : fetchInstr s = .ok i) :
    pcValid s = true ∧ decode (opcodeAt s) = .ok i ∧ isExecutable s.params i = true := by
  unfold fetchInstr at h
  split at h
  · rename_i hpc
    split at h
    · rename_i j hj
      split at h
      · cases h; exact ⟨hpc, hj, ‹_›⟩
      · cases h
    · cases h
  · cases h

end Sys2Proof.Machine
end

