-- ==== Sys2Proof/Laws/PerInstr.lean ====
section
/-! SUPPORT. The family MatchesRow of LAWS.json: what an instruction's opcode has to do with the row of the opcode map
its name stands for (`30_encoding.md` R81, R86). -/

namespace Sys2Proof.Laws.MatchesRow

/-- The opcode of the instruction fits a row of the opcode map that bears its name. -/
def Statement (i : Instr) : Prop := ∃ row ∈ opcodeTable, row.mnemonic = i.mnemonic ∧ rowMatches (encode i) row = true

/-- A mask keeps what it keeps of each half of an or. -/
theorem or_and_mask (x y m : Word) : (x ||| y) &&& m = (x &&& m) ||| (y &&& m) := by
  ext i hi
  simp only [BitVec.getElem_and, BitVec.getElem_or, Bool.and_or_distrib_right]

/-- Operand bits outside a mask do not disturb the match. -/
theorem or_matches (base x mask value : Word) (hb : base &&& mask = value) (hx : x &&& mask = 0) :
    ((base ||| x) &&& mask == value) = true := by
  rw [or_and_mask, hb, hx]
  simp

theorem rr_fits (base : Word) (hb : base &&& 0xFC00 = base) (d r : Reg) :
    (encodeRR base d r &&& 0xFC00 == base) = true := by
  unfold encodeRR
  rw [BitVec.or_assoc, BitVec.or_assoc]
  refine or_matches _ _ _ _ hb ?_
  revert d r
  decide +kernel

theorem r1_fits (base : Word) (hb : base &&& 0xFE0F = base) (d : Reg) :
    (encodeR1 base d &&& 0xFE0F == base) = true := by
  refine or_matches _ _ _ _ hb ?_
  revert d
  decide

theorem rel_fits (base : Word) (hb : base &&& 0xF000 = base) (k : Offset) :
    (encodeRel base k &&& 0xF000 == base) = true := by
  refine or_matches _ _ _ _ hb ?_
  revert k
  decide +kernel

theorem sf_fits (base : Word) (hb : base &&& 0xFF8F = base) (s : FlagIndex) :
    (encodeSF base s &&& 0xFF8F == base) = true := by
  refine or_matches _ _ _ _ hb ?_
  revert s
  decide

theorem ri_fits (d : Reg) (k : Byte) : (encodeRI 0xE000 d k &&& 0xF000 == 0xE000) = true := by
  unfold encodeRI
  rw [BitVec.or_assoc, BitVec.or_assoc]
  refine or_matches _ _ _ _ (by decide) ?_
  have hk : ∀ k : Byte, ((k.setWidth 16 >>> 4) <<< 8) &&& (0xF000 : Word) = 0 ∧
      (k.setWidth 16 &&& 0x000F) &&& (0xF000 : Word) = 0 := by decide +kernel
  have hd : ∀ d : Reg, (BitVec.ofNat 16 (d.val - 16) <<< 4) &&& (0xF000 : Word) = 0 := by decide
  rw [or_and_mask, or_and_mask, (hk k).1, hd d, (hk k).2]
  rfl

theorem nop : Statement .nop := ⟨⟨.nop, 0xFFFF, 0x0000⟩, by decide, rfl, by decide⟩
theorem add (d r : Reg) : Statement (.add d r) :=
  ⟨⟨.add, 0xFC00, 0x0C00⟩, by decide, rfl, rr_fits 0x0C00 (by decide) d r⟩
theorem sub (d r : Reg) : Statement (.sub d r) :=
  ⟨⟨.sub, 0xFC00, 0x1800⟩, by decide, rfl, rr_fits 0x1800 (by decide) d r⟩
theorem and (d r : Reg) : Statement (.and d r) :=
  ⟨⟨.and, 0xFC00, 0x2000⟩, by decide, rfl, rr_fits 0x2000 (by decide) d r⟩
theorem eor (d r : Reg) : Statement (.eor d r) :=
  ⟨⟨.eor, 0xFC00, 0x2400⟩, by decide, rfl, rr_fits 0x2400 (by decide) d r⟩
theorem or (d r : Reg) : Statement (.or d r) :=
  ⟨⟨.or, 0xFC00, 0x2800⟩, by decide, rfl, rr_fits 0x2800 (by decide) d r⟩
theorem com (d : Reg) : Statement (.com d) :=
  ⟨⟨.com, 0xFE0F, 0x9400⟩, by decide, rfl, r1_fits 0x9400 (by decide) d⟩
theorem inc (d : Reg) : Statement (.inc d) :=
  ⟨⟨.inc, 0xFE0F, 0x9403⟩, by decide, rfl, r1_fits 0x9403 (by decide) d⟩
theorem asr (d : Reg) : Statement (.asr d) :=
  ⟨⟨.asr, 0xFE0F, 0x9405⟩, by decide, rfl, r1_fits 0x9405 (by decide) d⟩
theorem lsr (d : Reg) : Statement (.lsr d) :=
  ⟨⟨.lsr, 0xFE0F, 0x9406⟩, by decide, rfl, r1_fits 0x9406 (by decide) d⟩
theorem ror (d : Reg) : Statement (.ror d) :=
  ⟨⟨.ror, 0xFE0F, 0x9407⟩, by decide, rfl, r1_fits 0x9407 (by decide) d⟩
theorem dec (d : Reg) : Statement (.dec d) :=
  ⟨⟨.dec, 0xFE0F, 0x940A⟩, by decide, rfl, r1_fits 0x940A (by decide) d⟩
theorem bset (s : FlagIndex) : Statement (.bset s) :=
  ⟨⟨.bset, 0xFF8F, 0x9408⟩, by decide, rfl, sf_fits 0x9408 (by decide) s⟩
theorem bclr (s : FlagIndex) : Statement (.bclr s) :=
  ⟨⟨.bclr, 0xFF8F, 0x9488⟩, by decide, rfl, sf_fits 0x9488 (by decide) s⟩
theorem ret : Statement .ret := ⟨⟨.ret, 0xFFFF, 0x9508⟩, by decide, rfl, by decide⟩
theorem reti : Statement .reti := ⟨⟨.reti, 0xFFFF, 0x9518⟩, by decide, rfl, by decide⟩
theorem rjmp (k : Offset) : Statement (.rjmp k) :=
  ⟨⟨.rjmp, 0xF000, 0xC000⟩, by decide, rfl, rel_fits 0xC000 (by decide) k⟩
theorem rcall (k : Offset) : Statement (.rcall k) :=
  ⟨⟨.rcall, 0xF000, 0xD000⟩, by decide, rfl, rel_fits 0xD000 (by decide) k⟩
theorem ldi (d : Reg) (k : Byte) : Statement (.ldi d k) :=
  ⟨⟨.ldi, 0xF000, 0xE000⟩, by decide, rfl, ri_fits d k⟩

end Sys2Proof.Laws.MatchesRow
end

