-- ==== Sys2Proof/Laws/Run.lean ====
section
/-! SUPPORT. What the standing of a run says of the step, and what a step request leaves. -/

namespace Sys2Proof.Machine

/-- Everything a step request can answer. -/
theorem serve_step_cases (s : State) :
    (∃ t, step s = .next t ∧ serve s .step = { state := t, error := none }) ∨
    (∃ f, step s = .fault f ∧ serve s .step = { state := s, error := some (.stepFault f) }) ∨
    (∃ r, step s = .refused r ∧ serve s .step = { state := s, error := some (.stepRefused r) }) := by
  cases h : step s with
  | next t => exact .inl ⟨t, rfl, by simp only [serve, h, replyOfStep]⟩
  | fault f => exact .inr (.inl ⟨f, rfl, by simp only [serve, h, replyOfStep]⟩)
  | refused r => exact .inr (.inr ⟨r, rfl, by simp only [serve, h, replyOfStep]⟩)

/-- Everything the standing of a run can be, with the step behind it. -/
theorem runStatus_cases (s : State) :
    (runStatus s = .running ∧ (∃ t, step s = .next t) ∧ ¬ idleLoop s) ∨
    (runStatus s = .idle ∧ (∃ t, step s = .next t) ∧ idleLoop s) ∨
    (∃ f, runStatus s = .faulted f ∧ step s = .fault f) ∨
    (∃ r, runStatus s = .declined r ∧ step s = .refused r) := by
  unfold runStatus
  cases h : step s with
  | next t =>
    by_cases hi : idleLoop s
    · exact .inr (.inl ⟨if_pos hi, ⟨t, rfl⟩, hi⟩)
    · exact .inl ⟨if_neg hi, ⟨t, rfl⟩, hi⟩
  | fault f => exact .inr (.inr (.inl ⟨f, rfl, rfl⟩))
  | refused r => exact .inr (.inr (.inr ⟨r, rfl, rfl⟩))

/-- A request that leaves the state as it was leaves it so however often it is made. -/
theorem serveAll_replicate_fixed {s : State} {q : HostRequest} (h : (serve s q).state = s) (n : Nat) :
    serveAll s (List.replicate n q) = s := by
  induction n with
  | zero => rfl
  | succ n ih => rw [List.replicate_succ, serveAll, h, ih]

end Sys2Proof.Machine
end

