-- ==== Sys2Proof/Tests/Slice0.lean ====
section
/-! SUPPORT. The model's own tests. Expected results are those of spec/95_test_vectors.md (V, E numbers) and of the
examples of files 40 to 43; witness_ theorems show that the hypotheses of the statements can be met. -/

namespace Sys2Proof.Tests

open Sys2Proof.Machine

/-! ### Helpers -/

/-- The next state of an outcome, if it is one. -/
def nextOf (o : Host.Outcome State Fault Refusal) : Option State :=
  match o with
  | .next t => some t
  | .fault _ => none
  | .refused _ => none

/-- The fault of an outcome, if it is one. -/
def faultOf (o : Host.Outcome State Fault Refusal) : Option Fault :=
  match o with
  | .fault f => some f
  | .next _ => none
  | .refused _ => none

theorem of_faultOf {o : Host.Outcome State Fault Refusal} {f : Fault} (h : faultOf o = some f) : o = .fault f := by
  cases o <;> simp_all [faultOf]

theorem of_nextOf {o : Host.Outcome State Fault Refusal} (h : (nextOf o).isSome = true) : ∃ t, o = .next t := by
  cases o <;> simp_all [nextOf]

/-- The reset state with a register pair, SREG, and one opcode at pc. -/
def withRegs (rd rr sreg : Byte) : State :=
  { (State.reset.writeReg 16 rd).writeReg 17 rr with sreg := sreg }

/-- x[16] and SREG after one step on the opcode `w` from x[16], x[17], SREG. -/
def alu (w : Nat) (rd rr sreg : Byte) : Option (Byte × Byte) :=
  (nextOf (step ((withRegs rd rr sreg).withFetchWord 16 w))).map fun t => (t.readReg 16, t.sreg)

/-- The reset state with pc, sp and a list of data bytes. -/
def at' (pc sp : Word) (dat : Memory) : State := { State.reset with pc := pc, sp := sp, dataMem := dat }

/-- pc, sp and data memory after one step on the opcode `w`. -/
def flow (w : Nat) (pc sp : Word) (dat : Memory) : Option (Word × Word × Memory) :=
  (nextOf (step ((at' pc sp dat).withFetchWord 16 w))).map fun t => (t.pc, t.sp, t.dataMem)

/-- The parameters with EXECUTABLE restricted to Tier 1. -/
def tier1Params : Params := { Params.default with executable := Mnemonic.tier1 }

/-! ### Decoding: words written out from the encodings of R86, one per constructor -/

theorem test_decode_nop : decode 0b0000000000000000 = .ok .nop := by decide
theorem test_decode_add : decode 0b0000110111110000 = .ok (.add 31 0) := by decide
theorem test_decode_add_high_source : decode 0b0000111000001111 = .ok (.add 0 31) := by decide
theorem test_decode_sub : decode 0b0001101100000001 = .ok (.sub 16 17) := by decide
theorem test_decode_and : decode 0b0010001100000001 = .ok (.and 16 17) := by decide
theorem test_decode_eor : decode 0b0010010010011001 = .ok (.eor 9 9) := by decide
theorem test_decode_or : decode 0b0010101100000001 = .ok (.or 16 17) := by decide
theorem test_decode_com : decode 0b1001010111110000 = .ok (.com 31) := by decide
theorem test_decode_inc : decode 0b1001010100000011 = .ok (.inc 16) := by decide
theorem test_decode_asr : decode 0b1001010100000101 = .ok (.asr 16) := by decide
theorem test_decode_lsr : decode 0b1001010100000110 = .ok (.lsr 16) := by decide
theorem test_decode_ror : decode 0b1001010100010111 = .ok (.ror 17) := by decide
theorem test_decode_dec : decode 0b1001010111111010 = .ok (.dec 31) := by decide
theorem test_decode_bset : decode 0b1001010001111000 = .ok (.bset 7) := by decide
theorem test_decode_bclr : decode 0b1001010010011000 = .ok (.bclr 1) := by decide
theorem test_decode_ret : decode 0b1001010100001000 = .ok .ret := by decide
theorem test_decode_reti : decode 0b1001010100011000 = .ok .reti := by decide
theorem test_decode_rjmp : decode 0b1100100000000000 = .ok (.rjmp (-2048)) := by decide
theorem test_decode_rcall : decode 0b1101111111111111 = .ok (.rcall (-1)) := by decide
theorem test_decode_ldi : decode 0b1110101001010101 = .ok (.ldi 21 0xA5) := by decide

/-- The unknown words of 95_test_vectors.md section 2.1. -/
theorem test_decode_unknown :
    [0x0001, 0x0BFF, 0x1000, 0x17FF, 0x1C00, 0x1FFF, 0x2C00, 0x93FF, 0x9401, 0x9402, 0x9404, 0x9409, 0x940B, 0x940C,
      0x9419, 0x9528, 0x9588, 0x9598, 0x95A8, 0x9600, 0xBFFF, 0xF000, 0xFFFF].all
      (fun w => decide (decode w = .error (.unknownOpcode w))) = true := by decide

/-- The host's numbering: the first byte holds bits 7 to 0 (R51; `opcode_table.json`). -/
theorem test_decodeTableWord : decodeTableWord 16 0x0F01 = some (.add 16 17) := by decide

theorem test_encode_ldi : encode (.ldi 31 0xA5) = 0xEAF5 := by decide
theorem test_encodeBytes_add : encodeBytes (.add 16 17) = [0x01, 0x0F] := by decide

/-! ### Well-formedness: one ill-formed term for each check -/

theorem test_wf_refuses_low_ldi : (Instr.ldi 15 0).wf = false := by decide
theorem test_wf_accepts_high_ldi : (Instr.ldi 16 0).wf = true := by decide
theorem test_valid_default : Params.default.Valid := by decide
theorem test_valid_refuses_small_program : ¬ { Params.default with progSize := 1 }.Valid := by decide
theorem test_valid_refuses_large_program : ¬ { Params.default with progSize := 65537 }.Valid := by decide
theorem test_valid_refuses_small_data :
    ¬ { Params.default with dataSize := 1, spMax := 0, spTop := 0, spHighClamp := 0 }.Valid := by decide
theorem test_valid_refuses_large_data : ¬ { Params.default with dataSize := 65537 }.Valid := by decide
theorem test_valid_refuses_empty_range : ¬ { Params.default with spMin := 0x0400 }.Valid := by decide
theorem test_valid_refuses_range_past_data : ¬ { Params.default with spMax := 0x0400 }.Valid := by decide
theorem test_valid_refuses_top_outside : ¬ { Params.default with spTop := 0x0400 }.Valid := by decide
theorem test_valid_refuses_low_clamp_outside :
    ¬ { Params.default with spMin := 1, spLowClamp := 0 }.Valid := by decide
theorem test_valid_refuses_high_clamp_outside : ¬ { Params.default with spHighClamp := 0x0400 }.Valid := by decide
theorem test_valid_refuses_missing_tier1 :
    ¬ { Params.default with executable := Mnemonic.tier1.erase .reti }.Valid := by decide
theorem test_memory_wf_refuses_unsorted : ¬ Memory.wf [(2, 1), (1, 1)] := by decide
theorem test_memory_wf_refuses_zero_byte : ¬ Memory.wf [(1, 0)] := by decide
theorem test_memory_write_zero_unlists : Memory.write [(1, 5), (3, 7)] 1 0 = [(3, 7)] := by decide

/-! ### Instructions -/

/-- V3, R110. -/
theorem test_nop : flow 0x0000 0x1FFE 0x03FF [] = some (0x2000, 0x03FF, []) := by decide
/-- V4. -/
theorem test_ldi : (nextOf (step (State.reset.withFetchWord 16 0xEF1F))).map (fun t => (t.readReg 17, t.pc)) =
    some (0xFF, 2) := by decide
/-- V5: LDI of 0 does not touch Z. -/
theorem test_ldi_zero : alu 0xE000 0xAA 0 0xFF = some (0x00, 0xFF) := by decide
/-- V20. -/
theorem test_add : alu 0x0F01 0xFF 0x01 0xC0 = some (0x00, 0xE3) := by decide
/-- V13. -/
theorem test_add_overflow : alu 0x0F01 0x80 0x80 0 = some (0x00, 0x1B) := by decide
/-- V26. -/
theorem test_sub : alu 0x1B01 0x00 0x01 0 = some (0xFF, 0x35) := by decide
/-- V28. -/
theorem test_sub_overflow : alu 0x1B01 0x7F 0xFF 0 = some (0x80, 0x0D) := by decide
/-- V45. -/
theorem test_inc : alu 0x9503 0x7E 0 0xFF = some (0x7F, 0xE1) := by decide
/-- V41. -/
theorem test_inc_overflow : alu 0x9503 0x7F 0 0 = some (0x80, 0x0C) := by decide
/-- V49c. -/
theorem test_dec : alu 0x950A 0x81 0 0xFF = some (0x80, 0xF5) := by decide
/-- V48. -/
theorem test_dec_overflow : alu 0x950A 0x80 0 0 = some (0x7F, 0x18) := by decide
/-- V50. -/
theorem test_rjmp : flow 0xCFFD 0x0008 0x03FF [] = some (0x0004, 0x03FF, []) := by decide
/-- V56: the target wraps modulo 65536. -/
theorem test_rjmp_wraps : flow 0xC800 0x0100 0x03FF [] = some (0xF102, 0x03FF, []) := by decide
/-- V61. -/
theorem test_rcall : flow 0xDFFF 0x1234 0x03FF [] = some (0x1234, 0x03FD, [(0x03FE, 0x12), (0x03FF, 0x36)]) := by decide
/-- V70: on a full stack the high byte overwrites the low one. -/
theorem test_rcall_full_stack : flow 0xD001 0x0000 0x0000 [] = some (0x0004, 0x0000, []) := by decide
/-- V62. -/
theorem test_ret : flow 0x9508 0x0008 0x03FD [(0x03FF, 0x04)] = some (0x0004, 0x03FF, [(0x03FF, 0x04)]) := by decide
/-- V67: the second pop is clamped. -/
theorem test_ret_clamped : flow 0x9508 0x0000 0x03FE [(0x03FF, 0x12)] = some (0x1212, 0x03FF, [(0x03FF, 0x12)]) := by
  decide
/-- V63. -/
theorem test_reti : flow 0x9518 0x0008 0x03FD [(0x03FF, 0x04)] = some (0x0004, 0x03FF, [(0x03FF, 0x04)]) := by decide
/-- V63, the flag byte. -/
theorem test_reti_sets_i : (nextOf (step ({ at' 8 0x03FD [] with sreg := 0x02 }.withFetchWord 16 0x9518))).map
    (fun t => t.sreg) = some 0x82 := by decide
/-- V102. -/
theorem test_and : alu 0x2301 0xFF 0x80 0x08 = some (0x80, 0x14) := by decide
/-- V101. -/
theorem test_and_zero : alu 0x2301 0xF0 0x0F 0x29 = some (0x00, 0x23) := by decide
/-- V106. -/
theorem test_eor : alu 0x2701 0x7F 0xFF 0x08 = some (0x80, 0x14) := by decide
/-- V108. -/
theorem test_or : alu 0x2B01 0xF0 0x3C 0 = some (0xFC, 0x14) := by decide
/-- V113. -/
theorem test_com : alu 0x9500 0x55 0 0x28 = some (0xAA, 0x35) := by decide
/-- V123. -/
theorem test_lsr : alu 0x9506 0xFF 0 0x20 = some (0x7F, 0x39) := by decide
/-- V122: the old C is not shifted in. -/
theorem test_lsr_carry : alu 0x9506 0x00 0 0x01 = some (0x00, 0x02) := by decide
/-- V127. -/
theorem test_asr : alu 0x9505 0x81 0 0 = some (0xC0, 0x15) := by decide
/-- V126. -/
theorem test_asr_min : alu 0x9505 0x80 0 0 = some (0xC0, 0x0C) := by decide
/-- V137. -/
theorem test_ror : alu 0x9507 0x01 0 0x21 = some (0x80, 0x35) := by decide
/-- V131. -/
theorem test_ror_no_carry : alu 0x9507 0x01 0 0 = some (0x00, 0x1B) := by decide
/-- V142. -/
theorem test_bset : alu 0x9468 0 0 0 = some (0, 0x40) := by decide
/-- V146. -/
theorem test_bclr : alu 0x94D8 0 0 0xFF = some (0, 0xDF) := by decide

/-! ### Errors of a step (95_test_vectors.md section 2.10) -/

/-- V150. -/
theorem test_unknown_opcode :
    faultOf (step ({ State.reset with pc := 2 }.withFetchWord 16 0xFFFF)) = some (.unknownOpcode 0xFFFF) := by decide
/-- V152. -/
theorem test_pc_past_end : faultOf (step { State.reset with pc := 0x2000 }) = some (.invalidProgramCounter 0x2000) := by
  decide
/-- V158: the pc check comes before decoding. -/
theorem test_pc_odd_first : faultOf (step { State.reset with pc := 5, progMem := [(5, 0xFF), (6, 0xFF)] }) =
    some (.invalidProgramCounter 5) := by decide
/-- V156. -/
theorem test_unsupported : faultOf (step ((State.initial tier1Params).withFetchWord 16 0x2301)) =
    some (.unsupportedInstruction (.and 16 17)) := by decide
/-- V157. -/
theorem test_tier1_add_runs : (nextOf (step ((State.initial tier1Params).withFetchWord 16 0x0F01))).isSome = true := by
  decide

/-! ### The end of a run (R243) -/

/-- P6a from its second step: the unknown word ends the run in a fault, the state unchanged. -/
theorem test_run_faults : let s := { State.reset with pc := 2 }.withFetchWord 16 0xFFFF
    runFor 3 s = (s, .faulted (.unknownOpcode 0xFFFF)) := by decide
/-- P1 from its fifth step (V51): the idle loop ends the run. -/
theorem test_run_idles : let s := { State.reset with pc := 4 }.withFetchWord 16 0xCFFF
    runFor 3 s = (s, .idle) := by decide

/-! ### Host operations (95_test_vectors.md section 2.11) -/

/-- Program bytes AA BB CC DD at 0, pc 6. -/
def loaded : State := { State.reset with pc := 6, progMem := [(0, 0xAA), (1, 0xBB), (2, 0xCC), (3, 0xDD)] }

/-- V82. -/
theorem test_loadFlatBinary : (loadFlatBinary [0x1F, 0xEF] loaded).state.progMem =
    [(0, 0x1F), (1, 0xEF), (2, 0xCC), (3, 0xDD)] := by decide
/-- V83. -/
theorem test_loadFromVector : (let r := (loadFromVector [0x1F, 0xEF] loaded).state; (r.progMem, r.pc)) =
    ([(0, 0x1F), (1, 0xEF)], 0) := by decide
/-- V90. -/
theorem test_hex_record : loadHexRecords ":020000001FEFF0\n:00000001FF\n".toList State.reset =
    { state := { State.reset with progMem := [(0, 0x1F), (1, 0xEF)] }, error := none } := by decide
/-- V92: lower-case digits, CR LF, a wrong checksum, a short record skipped, and nothing read after the end record. -/
theorem test_hex_mixed : loadHexRecords
    ":020000001fef00\r\n:0201000012\r\n:02010000FFCF30\r\n:00000001FF\r\n:02000000AAAA00\r\n".toList State.reset =
    { state := { State.reset with progMem := [(0, 0x1F), (1, 0xEF), (0x100, 0xFF), (0x101, 0xCF)] }, error := none } := by
  decide +kernel
/-- V93: the record that does not fit ends the load and writes nothing. -/
theorem test_hex_out_of_range : loadHexRecords ":021FFE000102DE\n:021FFF000102DD\n:02000000AAAAAA".toList State.reset =
    { state := { State.reset with progMem := [(0x1FFE, 1), (0x1FFF, 2)] }, error := some .addressOutOfRange } := by decide
/-- V94. -/
theorem test_hex_unsupported : loadHexRecords ":020000040000FA\n:02000000AAAAAA".toList State.reset =
    { state := State.reset, error := some .unsupportedRecordType } := by decide
/-- V95: four malformed lines skipped, a missing marker accepted. -/
theorem test_hex_malformed : loadHexRecords "\n:0\n:02000000ZZEF00\n:0300000001027A\n02000200050600".toList State.reset =
    { state := { State.reset with progMem := [(2, 5), (3, 6)] }, error := none } := by decide
/-- R100: an unknown opcode is shown as NOP, a known one as its text. -/
theorem test_mnemonic_unknown : getInstructionMnemonic (State.reset.withFetchWord 16 0xFFFF) = "NOP" := by decide
theorem test_mnemonic_text : getInstructionMnemonic (State.reset.withFetchWord 16 0xCFFD) = "RJMP -3" := by decide
/-- R95: P1's call from 0002 to the label at 0006 is +1. -/
theorem test_labelOffset : labelOffset 0x0002 0x0006 = some 1 := by decide

/-! ### Witnesses: the hypotheses of the statements can be met -/

theorem witness_DecodeOfEncode : (Instr.ldi 16 0xFF).wf = true ∧ (Instr.add 31 31).wf = true := by decide
theorem witness_EncodeOfDecode : decode 0xEFFF = .ok (.ldi 31 0xFF) ∧ decode 0x0FFF = .ok (.add 31 31) := by decide
theorem witness_RelativeOffset : decode 0xC7FF = .ok (.rjmp 2047) ∧ decode 0xC800 = .ok (.rjmp (-2048)) ∧
    decode 0xD000 = .ok (.rcall 0) := by decide
/-- StepRuns: odd pc; the first even pc past the end; the last valid pc with an unknown, an unsupported and an
executable opcode. -/
theorem witness_StepRuns :
    tier1Params.Valid ∧ (5 : Word).toNat % 2 = 1 ∧ tier1Params.progSize < (0x2000 : Word).toNat + 2 ∧
    (0x1FFE : Word).toNat % 2 = 0 ∧ (0x1FFE : Word).toNat + 2 ≤ tier1Params.progSize ∧
    (let s := { State.initial tier1Params with pc := 0x1FFE }
     decode (opcodeAt (s.withFetchWord 16 0xFFFF)) = .error (.unknownOpcode 0xFFFF) ∧
     (decode (opcodeAt (s.withFetchWord 16 0x2301)) = .ok (.and 16 17) ∧ Mnemonic.and ∉ s.params.executable) ∧
     decode (opcodeAt (s.withFetchWord 16 0x0F01)) = .ok (.add 16 17) ∧ Mnemonic.add ∈ s.params.executable) := by decide
theorem witness_UnmatchedOpcode : let s := State.reset.withFetchWord 16 0xFFFF
    s.params.Valid ∧ pcValid s = true ∧ ∀ row ∈ opcodeTable, rowMatches (opcodeAt s) row = false := by decide
theorem witness_Unsupported : State.reset.params.executable = Params.default.executable ∧
    (let s := (State.initial tier1Params).withFetchWord 16 0x2301
     s.params.Valid ∧ s.params.executable = Mnemonic.tier1 ∧ pcValid s = true ∧
     decode (opcodeAt s) = .ok (.and 16 17) ∧ (Instr.and 16 17).mnemonic ∈ Mnemonic.tier2) := by decide
/-- For ErrorsChangeNothing and FaultStatesArePermanent. -/
theorem witness_FaultState : step { State.reset with pc := 5 } = .fault (.invalidProgramCounter 5) :=
  of_faultOf (by decide)
theorem witness_StepRefuses : ¬ { State.reset with params := { Params.default with progSize := 1 } }.params.Valid := by
  decide
/-- For every statement whose premise is the invariant: reset, and a machine in use. -/
theorem witness_Inv : State.reset.Inv ∧ (at' 8 0x03FD [(0x03FF, 0x04)]).Inv := by decide
/-- StepEnds: each of its four cases occurs in a state of the invariant. -/
theorem witness_StepEnds : (nextOf (step State.reset)).isSome = true ∧ State.reset.Inv ∧
    (faultOf (step { State.reset with pc := 5 }) = some (.invalidProgramCounter 5) ∧ { State.reset with pc := 5 }.Inv) ∧
    (faultOf (step (State.reset.withFetchWord 16 1)) = some (.unknownOpcode 1) ∧ (State.reset.withFetchWord 16 1).Inv) ∧
    (faultOf (step ((State.initial tier1Params).withFetchWord 16 0x2301)) = some (.unsupportedInstruction (.and 16 17)) ∧
      ((State.initial tier1Params).withFetchWord 16 0x2301).Inv) :=
  ⟨by decide, by decide, ⟨by decide, by decide⟩, ⟨by decide, by decide⟩, by decide, by decide⟩
theorem witness_InitialInv : tier1Params.Valid := by decide
theorem witness_EveryStep : State.reset.Inv ∧ ∃ t, step State.reset = .next t := ⟨by decide, of_nextOf (by decide)⟩
/-- NoInstructionFails, its last clause: a jump past the end of program memory. -/
theorem witness_NoInstructionFails : pcValid { State.reset with pc := 0xF102 } = false ∧
    (nextOf (exec (.rjmp (-2048)) { State.reset with pc := 0x0100 })).map (fun t => t.pc) = some 0xF102 := by decide
/-- For the frame statements, whose premise is that an instruction answers a next state (with an even pc). -/
theorem witness_exec_next : (State.reset.pc.toNat % 2 = 0 ∧ ∃ t, exec (.rcall 1) State.reset = .next t) ∧
    (∃ t, exec .reti State.reset = .next t) ∧ ∃ t, exec (.bclr 7) State.reset = .next t :=
  ⟨⟨by decide, of_nextOf (by decide)⟩, of_nextOf (by decide), of_nextOf (by decide)⟩
theorem witness_frame_tables : destReg (.add 3 4) ≠ some 4 ∧ writesFlag (.inc 3) .c = false ∧
    writesFlag (.bset 7) .t = false ∧ isBranching (.ldi 16 0) = false := by decide
theorem witness_errorReply : (serve { State.reset with pc := 5 } .step).error ≠ none := by decide
theorem witness_OnlyRor : agreeButSreg State.reset { State.reset with sreg := 0xFE } ∧
    { State.reset with sreg := 0xFE }.flag .c = State.reset.flag .c :=
  ⟨⟨rfl, rfl, rfl, rfl, rfl, rfl⟩, by decide⟩
/-- OnlyRor and InterruptFlag, their fault clauses: a stack pointer outside data memory. -/
theorem witness_exec_fault : exec (.rcall 0) (at' 0 0x0400 []) = .fault (.dataAddressOutOfRange 0x0400) :=
  of_faultOf (by decide)
/-- Nop: all 4096 words of zeroed program memory from reset, and pc at its end. -/
theorem witness_Nop : (State.reset.params.Valid ∧ State.reset.progMem = [] ∧ State.reset.pc.toNat % 2 = 0 ∧
    State.reset.pc.toNat + 2 * 4096 ≤ State.reset.params.progSize) ∧
    { State.reset with pc := 0x2000 }.pc.toNat = { State.reset with pc := 0x2000 }.params.progSize := by decide
theorem witness_Ldi : 16 ≤ (16 : Reg).val ∧ decode 0xE000 = .ok (.ldi 16 0) := by decide
/-- Rcall: room for two bytes, for one more move, and none. -/
theorem witness_Rcall : (at' 0 2 []).Inv ∧ Params.default.spMin.toNat + 2 ≤ (2 : Word).toNat ∧
    Params.default.spLowClamp = Params.default.spMin ∧
    (at' 0 1 []).Inv ∧ (1 : Word).toNat = Params.default.spMin.toNat + 1 ∧
    (at' 0 0 []).Inv ∧ (0 : Word) = Params.default.spMin :=
  ⟨by decide, by decide, by decide, by decide, by decide, by decide, by decide⟩
/-- Ret: two bytes above sp, one, and none. -/
theorem witness_Ret : (at' 0 0x03FD []).Inv ∧ (0x03FD : Word).toNat + 2 ≤ Params.default.spMax.toNat ∧
    Params.default.spHighClamp = Params.default.spMax ∧
    (at' 0 0x03FE []).Inv ∧ (0x03FE : Word).toNat + 1 = Params.default.spMax.toNat ∧
    (at' 0 0x03FF []).Inv ∧ (0x03FF : Word) = Params.default.spMax :=
  ⟨by decide, by decide, by decide, by decide, by decide, by decide, by decide⟩
/-- ReturnUndoes: the state right after the call, with the lowest sp that has room. -/
theorem witness_ReturnUndoes : ∃ t u : State, (at' 2 2 []).Inv ∧ (at' 2 2 []).params.spMin.toNat + 2 ≤ (at' 2 2 []).sp.toNat ∧
    exec (.rcall 1) (at' 2 2 []) = .next t ∧ u.params = t.params ∧ u.sp = t.sp ∧
    u.dataByte (at' 2 2 []).sp.toNat = t.dataByte (at' 2 2 []).sp.toNat ∧
    u.dataByte ((at' 2 2 []).sp.toNat - 1) = t.dataByte ((at' 2 2 []).sp.toNat - 1) := by
  obtain ⟨t, ht⟩ := of_nextOf (o := exec (.rcall 1) (at' 2 2 [])) (by decide)
  exact ⟨t, t, by decide, by decide, ht, rfl, rfl, rfl, rfl⟩
/-- NestedCalls: two calls in a stack with room for exactly two. -/
theorem witness_NestedCalls : (at' 0 4 []).Inv ∧
    (at' 0 4 []).params.spMin.toNat + 2 * ([(5 : Offset)].length + 1) ≤ (at' 0 4 []).sp.toNat := by decide
/-- StackPointerMoves: both bounds, and the values next to them. -/
theorem witness_StackPointerMoves : Params.default.Valid ∧ Params.default.InStack 0 ∧ Params.default.InStack 0x03FF ∧
    (0 : Word) = Params.default.spMin ∧ Params.default.spMin.toNat < (1 : Word).toNat ∧
    (0x03FF : Word) = Params.default.spMax ∧ (0x03FE : Word).toNat < Params.default.spMax.toNat := by decide
/-- StackAccessOutside: sp itself, and the address a pop would read, one past the end. -/
theorem witness_StackAccessOutside : (at' 0 0x0400 []).params.dataSize ≤ (at' 0 0x0400 []).sp.toNat ∧
    (let s := { at' 0 0x03FF [] with params := { Params.default with spMax := 0x0500 } }
     s.params.dataSize ≤ (spInc s.params s.sp).toNat) := by decide
/-- Rcall, its clause on the low byte: the decremented sp is another address. -/
theorem witness_Rcall_low_byte_kept : (at' 0 1 []).Inv ∧ spDec Params.default 1 ≠ 1 := by decide
/-- AndOr and Eor, their same-register clauses, at a register that differs from zero. -/
theorem witness_same_register : (9 : Reg) = 9 ∧ (State.reset.writeReg 9 0x5A).readReg 9 ≠ 0 := by decide
theorem witness_IdleLoop : let s := State.reset.withFetchWord 16 0xCFFF
    s.params.Valid ∧ pcValid s = true ∧ opcodeAt s = 0xCFFF := by decide
theorem witness_FlatBinary : Memory.wf State.reset.progMem ∧
    [(0x1F : Byte), 0xEF].length ≤ State.reset.params.progSize ∧
    { State.reset with params := { Params.default with progSize := 2 } }.params.progSize <
      [(1 : Byte), 2, 3].length := by decide
/-- HexLines: a line of each kind. -/
theorem witness_HexLines : Memory.wf ([] : Memory) ∧
    parseRecord ":0".toList = .error .malformedRecord ∧
    parseRecord ":021FFE000102DE".toList = .ok { addr := 0x1FFE, recType := 0, data := [1, 2] } ∧
    0x1FFE + 2 ≤ 8192 ∧
    parseRecord ":021FFF000102DD".toList = .ok { addr := 0x1FFF, recType := 0, data := [1, 2] } ∧
    8192 < 0x1FFF + 2 ∧
    parseRecord ":00000001FF".toList = .ok { addr := 0, recType := 1, data := [] } ∧
    parseRecord ":020000040000FA".toList = .ok { addr := 0, recType := 4, data := [0, 0] } := by decide
/-- HexLines and HexLoad, their clauses on text: a line without a marker, a line with no line feed, and one that ends in
no carriage return. -/
theorem witness_HexText : ['0'].head? ≠ some ':' ∧ '\n' ∉ [':', '0'] ∧ [':', '0'].getLast? ≠ some '\r' := by decide
/-- Runs: the three standings of a run occur with admissible parameters. -/
theorem witness_Runs : (State.reset.params.Valid ∧ runStatus State.reset = .running) ∧
    runStatus { State.reset with pc := 5 } = .faulted (.invalidProgramCounter 5) ∧
    runStatus (State.reset.withFetchWord 16 0xCFFF) = .idle := by decide
theorem witness_Display : pcValid State.reset = true ∧ decode (opcodeAt State.reset) = .ok .nop ∧
    decode (opcodeAt (State.reset.withFetchWord 16 1)) = .error (.unknownOpcode 1) ∧
    pcValid { State.reset with pc := 5 } = false := by decide

end Sys2Proof.Tests
end

section
/-! SUPPORT. What the state after `initialize` reads as (`10_state.md` R36), and O7. -/

namespace Sys2Proof.Machine

variable (p : Params) (a : Nat) (f : Flag)

@[simp] theorem State.initial_flag : (State.initial p).flag f = false := BitVec.getLsbD_zero

@[simp] theorem State.initial_progByte : (State.initial p).progByte a = 0 := Memory.read_nil a

@[simp] theorem State.initial_dataByte : (State.initial p).dataByte a = 0 := Memory.read_nil a

/-- Both bytes at `pc` are 0x00 after reset, and so is the opcode they make (R51). -/
@[simp] theorem opcodeAt_initial : opcodeAt (State.initial p) = 0 := by
  have h : wordOfBytes 0 0 = 0 := by decide
  simpa [opcodeAt] using h

/-- The request answers the reset state of the machine's own parameters, and no error (R230). -/
@[simp] theorem serve_reinitialise (s : State) :
    serve s .reinitialise = { state := State.initial s.params, error := none } := rfl

theorem decode_zero : decode 0 = .ok .nop := by decide

end Sys2Proof.Machine

open Sys2Proof.Machine

/-- Settles O7: the answer is `State.initial` of the machine's parameters, whose every piece is known. -/
theorem initialiseGivesEveryResetValue : Obligations.InitialiseGivesEveryResetValue := by
  unfold Obligations.InitialiseGivesEveryResetValue
  intro s
  rw [serve_reinitialise]
  exact ⟨rfl, fun d => State.initial_readReg d s.params, State.initial_sreg _, State.initial_flag _,
    State.initial_pc _, State.initial_sp _, State.initial_progByte _, State.initial_dataByte _,
    opcodeAt_initial _, decode_zero, State.initial_params _⟩

end

section
/-! SUPPORT. What fetch reads (`20_memory.md` R51), and O9. -/

namespace Sys2Proof.Machine

/-- The opcode as a number: the byte at `pc` is its low byte, the byte at `pc + 1` its high one (R51). -/
theorem opcodeAt_toNat (s : State) :
    (opcodeAt s).toNat = (s.progByte s.pc.toNat).toNat + 256 * (s.progByte (s.pc.toNat + 1)).toNat := by
  rw [opcodeAt, wordOfBytes_toNat]

end Sys2Proof.Machine

open Sys2Proof.Machine

/-- Settles O9: the opcode is the word of the bytes at `pc` and `pc + 1`, the first one low. -/
theorem fetchIsLittleEndian : Obligations.FetchIsLittleEndian := by
  unfold Obligations.FetchIsLittleEndian
  exact opcodeAt_toNat

end

section
/-! SUPPORT. The opcode map as a partition (`30_encoding.md` R85, R87): no opcode fits two rows, so decode answers from
the only row an opcode fits; and O3. -/

namespace Sys2Proof

/-- Two rows whose values agree on the bits both of them fix are the same row (R87). -/
theorem opcodeTable_disjoint :
    ∀ a ∈ opcodeTable, ∀ b ∈ opcodeTable, a.value &&& b.mask = b.value &&& a.mask → a = b := by decide

/-- One opcode gives two rows it fits the same values on the bits both of them fix. -/
theorem values_agree_of_rowMatches {w : Word} {a b : OpcodeRow} (ha : rowMatches w a = true)
    (hb : rowMatches w b = true) : a.value &&& b.mask = b.value &&& a.mask := by
  rw [rowMatches, beq_iff_eq] at ha hb
  rw [← ha, ← hb]
  ac_rfl

theorem row_unique {w : Word} {a b : OpcodeRow} (ha : a ∈ opcodeTable) (hb : b ∈ opcodeTable)
    (hwa : rowMatches w a = true) (hwb : rowMatches w b = true) : a = b :=
  opcodeTable_disjoint a ha b hb (values_agree_of_rowMatches hwa hwb)

/-- Decode answers from the row an opcode fits, whichever place it has in the map (R85). -/
theorem decode_of_rowMatches {w : Word} {row : OpcodeRow} (hrow : row ∈ opcodeTable)
    (hw : rowMatches w row = true) : decode w = .ok (instrOfFields w row.mnemonic) := by
  unfold decode
  cases hf : opcodeTable.find? (rowMatches w) with
  | none => exact absurd hw (List.find?_eq_none.mp hf row hrow)
  | some found => rw [row_unique (List.mem_of_find?_eq_some hf) hrow (List.find?_some hf) hw]

theorem decode_of_no_row {w : Word} (h : ∀ row ∈ opcodeTable, rowMatches w row = false) :
    decode w = .error (.unknownOpcode w) := by
  have hf : opcodeTable.find? (rowMatches w) = none := List.find?_eq_none.mpr (by simpa using h)
  rw [decode, hf]

theorem row_or_no_row (w : Word) :
    (∃ row ∈ opcodeTable, rowMatches w row = true) ∨ ∀ row ∈ opcodeTable, rowMatches w row = false := by
  by_cases h : ∃ row ∈ opcodeTable, rowMatches w row = true
  · exact .inl h
  · exact .inr (by simpa using h)

@[simp] theorem mnemonic_instrOfFields (w : Word) (m : Mnemonic) : (instrOfFields w m).mnemonic = m := by
  cases m <;> rfl

end Sys2Proof

open Sys2Proof

/-- Settles O3: the rows are disjoint, so the first row that fits is the only one. -/
theorem everyOpcodeFitsOneRowOrIsUnknown : Obligations.EveryOpcodeFitsOneRowOrIsUnknown := by
  unfold Obligations.EveryOpcodeFitsOneRowOrIsUnknown
  intro w
  rcases row_or_no_row w with ⟨row, hrow, hw⟩ | hnone
  · exact .inl ⟨row, hrow, hw, fun _ hrow' hw' => row_unique hrow' hrow hw' hw, decode_of_rowMatches hrow hw,
      mnemonic_instrOfFields w row.mnemonic⟩
  · exact .inr ⟨hnone, decode_of_no_row hnone⟩

end

section
/-! SUPPORT. The offset of RJMP and RCALL and the target it gives (`30_encoding.md` R84, `42_control_flow.md` R140), and
O5. -/

namespace Sys2Proof

theorem fieldOffset_toNat (w : Word) : (fieldOffset w).toNat = w.toNat % 4096 := by
  simp [fieldOffset, BitVec.extractLsb'_toNat]

/-- A decoded instruction has the operand fields of its opcode, in the format of its own row (R81). -/
theorem eq_instrOfFields_of_decode {w : Word} {i : Instr} (h : decode w = .ok i) :
    i = instrOfFields w i.mnemonic := by
  rcases row_or_no_row w with ⟨row, hrow, hw⟩ | hnone
  · rw [decode_of_rowMatches hrow hw] at h
    rw [← Except.ok.inj h, mnemonic_instrOfFields]
  · rw [decode_of_no_row hnone] at h
    cases h

/-- An opcode that decodes to RJMP or RCALL has the offset in its low 12 bits. -/
theorem offset_of_decode {w : Word} {k : Offset} (h : decode w = .ok (.rjmp k) ∨ decode w = .ok (.rcall k)) :
    k = fieldOffset w := by
  rcases h with h | h
  · exact Instr.rjmp.inj (eq_instrOfFields_of_decode h)
  · exact Instr.rcall.inj (eq_instrOfFields_of_decode h)

/-- A 12-bit offset as a two's-complement number (R84). -/
theorem offset_toInt (k : Offset) : k.toInt = if k.toNat < 2048 then (k.toNat : Int) else (k.toNat : Int) - 4096 := by
  have h : 2 * k.toNat < 2 ^ 12 ↔ k.toNat < 2048 := by omega
  simp only [BitVec.toInt_eq_toNat_cond, h]
  rfl

theorem offset_toInt_range (k : Offset) : -2048 ≤ k.toInt ∧ k.toInt ≤ 2047 := by
  have := k.isLt
  rw [offset_toInt]
  split <;> omega

namespace Machine

/-- The target of a relative transfer as a number: the offset counts words of two bytes, modulo 65536 (R140). -/
theorem relTarget_toNat (pc : Word) (k : Offset) :
    ((relTarget pc k).toNat : Int) = ((pc.toNat : Int) + 2 + k.toInt * 2) % 65536 := by
  have h : relTarget pc k = BitVec.ofInt 16 ((pc.toNat : Int) + 2 + k.toInt * 2) := by
    rw [relTarget, BitVec.signExtend, BitVec.ofInt_add, BitVec.ofInt_add, BitVec.ofInt_mul, BitVec.mul_comm]
    simp
  rw [h, BitVec.toNat_ofInt]
  omega

end Machine

end Sys2Proof

open Sys2Proof Sys2Proof.Machine

/-- Settles O5: the offset is the low 12 bits of the opcode, and the rest are facts about a 12-bit number. -/
theorem relativeOffsetIsSignedAndScaled : Obligations.RelativeOffsetIsSignedAndScaled := by
  unfold Obligations.RelativeOffsetIsSignedAndScaled
  intro w k h
  have hk : k.toNat = w.toNat % 4096 := by rw [offset_of_decode h, fieldOffset_toNat]
  refine ⟨?_, offset_toInt_range k, BitVec.toInt_signExtend_of_le (by decide), fun pc => relTarget_toNat pc k⟩
  rw [offset_toInt, hk, Int.natCast_mod, Nat.cast_ofNat]

end

section
/-! SUPPORT. Opcodes that fit no row (`30_encoding.md` R88): what a step that fetches one answers, and O11. -/

namespace Sys2Proof

/-- The operand fields of an opcode are always in the ranges of R95. -/
theorem instrOfFields_wf (w : Word) (m : Mnemonic) : (instrOfFields w m).wf = true := by
  cases m with
  | ldi => exact decide_eq_true (Nat.le_add_right 16 _)
  | _ => rfl

namespace Machine

/-- Fetch fails with the opcode at a valid `pc` that fits no row (R202). -/
theorem fetchInstr_of_no_row {s : State} (hpc : pcValid s = true)
    (h : ∀ row ∈ opcodeTable, rowMatches (opcodeAt s) row = false) :
    fetchInstr s = .error (.unknownOpcode (opcodeAt s)) := by
  simp [fetchInstr, hpc, decode_of_no_row h]

/-- A step whose fetch fails stops with the same fault (R205). -/
theorem step_of_fetch_error {s : State} {f : Fault} (hp : s.params.Valid) (h : fetchInstr s = .error f) :
    step s = .fault f := by
  rw [step, if_pos hp, h]

/-- A step request that fails answers the state it started from (R203). -/
theorem serve_step_of_fault {s : State} {f : Fault} (h : step s = .fault f) :
    serve s .step = { state := s, error := some (.stepFault f) } := by
  rw [serve, h, replyOfStep]

end Machine

end Sys2Proof

open Sys2Proof Sys2Proof.Machine

/-- Settles O11: fetch fails with the opcode, the step with fetch's fault, and a failed request keeps the state. -/
theorem unmatchedOpcodeRaisesUnknownOpcode : Obligations.UnmatchedOpcodeRaisesUnknownOpcode := by
  unfold Obligations.UnmatchedOpcodeRaisesUnknownOpcode
  refine ⟨fun s hp hpc h => serve_step_of_fault (step_of_fetch_error hp (fetchInstr_of_no_row hpc h)), fun w => ?_⟩
  rcases row_or_no_row w with ⟨row, hrow, hw⟩ | hnone
  · exact .inl ⟨_, decode_of_rowMatches hrow hw, instrOfFields_wf w row.mnemonic⟩
  · exact .inr (decode_of_no_row hnone)

end

section
/-! SUPPORT. Which opcodes decode to an instruction (`30_encoding.md` R85, R86): those of the row that bears its name,
with its operands in their fields. -/

namespace Sys2Proof

/-- The map has one row for each name (R86). -/
theorem row_eq_of_mnemonic_eq :
    ∀ a ∈ opcodeTable, ∀ b ∈ opcodeTable, a.mnemonic = b.mnemonic → a = b := by decide

/-- An opcode decodes to an instruction exactly when it fits the row of that name and holds the operands (R85). -/
theorem decode_eq_ok_iff {w : Word} {i : Instr} {row : OpcodeRow} (hrow : row ∈ opcodeTable)
    (hi : i.mnemonic = row.mnemonic) :
    decode w = .ok i ↔ w &&& row.mask = row.value ∧ instrOfFields w row.mnemonic = i := by
  rw [← beq_iff_eq (a := w &&& row.mask)]
  refine ⟨fun h => ?_, fun ⟨hw, hf⟩ => hf ▸ decode_of_rowMatches hrow hw⟩
  obtain ⟨row', hrow', hw⟩ | hnone := row_or_no_row w
  · have hf : instrOfFields w row'.mnemonic = i := Except.ok.inj ((decode_of_rowMatches hrow' hw).symm.trans h)
    have hm : row'.mnemonic = row.mnemonic := by rw [← hi, ← hf, mnemonic_instrOfFields]
    obtain rfl := row_eq_of_mnemonic_eq row' hrow' row hrow hm
    exact ⟨hw, hf⟩
  · cases (decode_of_no_row hnone).symm.trans h

/-- Only well-formed instructions are decoded. -/
theorem wf_of_decode {w : Word} {i : Instr} (h : decode w = .ok i) : i.wf = true :=
  eq_instrOfFields_of_decode h ▸ instrOfFields_wf w i.mnemonic

end Sys2Proof

end

section
/-! SUPPORT. The checks of a step (`70_reset_and_hazards.md` R240) that pass, and the one on `pc` that fails. -/

namespace Sys2Proof.Machine

/-- `pc` is even and two bytes of program memory remain (R25). -/
theorem pcValid_iff {s : State} :
    pcValid s = true ↔ s.pc.toNat % 2 = 0 ∧ s.pc.toNat + 2 ≤ s.params.progSize := by
  simp [pcValid]

theorem fetchInstr_of_pc_invalid {s : State} (h : ¬ pcValid s = true) :
    fetchInstr s = .error (.invalidProgramCounter s.pc) := by
  rw [fetchInstr, if_neg h]

/-- Fetch answers the decoded instruction when all three checks pass (R205). -/
theorem fetchInstr_of_decode {s : State} {i : Instr} (hpc : pcValid s = true) (hi : decode (opcodeAt s) = .ok i)
    (hx : i.mnemonic ∈ s.params.executable) : fetchInstr s = .ok i := by
  simp [fetchInstr, hpc, hi, isExecutable, hx]

theorem step_of_fetch_ok {s : State} {i : Instr} (hp : s.params.Valid) (h : fetchInstr s = .ok i) :
    step s = exec i s := by
  rw [step, if_pos hp, h]

/-- Every admissible machine executes the instructions of Tier 1 (R10). -/
theorem executable_of_tier1 {p : Params} (hp : p.Valid) {m : Mnemonic} (hm : m ∈ Mnemonic.tier1) :
    m ∈ p.executable := by
  obtain ⟨-, -, -, -, -, -, htier⟩ := hp
  exact htier m hm

/-- `pc` advances modulo 65536 (R24). -/
theorem pc_add_two_toNat (pc : Word) : (pc + 2).toNat = (pc.toNat + 2) % 65536 := BitVec.toNat_add pc 2

end Sys2Proof.Machine

end

section
/-! SUPPORT. NOP (`40_nop_and_load_immediate.md` R110) and empty program memory as a run of NOPs, and O29. -/

namespace Sys2Proof.Machine

theorem exec_nop (s : State) : exec .nop s = .next s.advance := rfl

theorem State.advance_memoriesKept (s : State) : memoriesKept s s.advance := ⟨fun _ => rfl, fun _ => rfl, rfl⟩

/-- Empty program memory reads as the opcode of NOP, wherever `pc` is. -/
theorem opcodeAt_of_progMem_nil {s : State} (h : s.progMem = []) : opcodeAt s = 0 := by
  have hbyte (a : Nat) : s.progByte a = 0 := by rw [State.progByte, h]; exact Memory.read_nil a
  rw [opcodeAt, hbyte, hbyte]
  rfl

/-- A step request at a valid `pc` of empty program memory runs NOP. -/
theorem serve_step_of_progMem_nil {s : State} (hp : s.params.Valid) (hm : s.progMem = []) (hpc : pcValid s = true) :
    serve s .step = { state := s.advance, error := none } := by
  have hd : decode (opcodeAt s) = .ok .nop := by rw [opcodeAt_of_progMem_nil hm, decode_zero]
  have hx : Mnemonic.nop ∈ s.params.executable := executable_of_tier1 hp (by decide)
  rw [serve, step_of_fetch_ok hp (fetchInstr_of_decode hpc hd hx), exec_nop, replyOfStep]

/-- Empty program memory is a run of NOPs as far as it reaches; a wrap to 0 is possible at its last word alone, so no
step is taken after one. -/
theorem serveAll_steps_of_progMem_nil (n : Nat) (s : State) (hp : s.params.Valid) (hm : s.progMem = [])
    (heven : s.pc.toNat % 2 = 0) (hn : s.pc.toNat + 2 * n ≤ s.params.progSize) :
    serveAll s (List.replicate n .step) = { s with pc := s.pc + BitVec.ofNat 16 (2 * n) } := by
  induction n generalizing s with
  | zero => simp [serveAll]
  | succ n ih =>
    have hpc : pcValid s = true := pcValid_iff.mpr ⟨heven, by omega⟩
    have hnext : s.advance.pc.toNat = (s.pc.toNat + 2) % 65536 := pc_add_two_toNat s.pc
    have hsum : s.pc + 2 + BitVec.ofNat 16 (2 * n) = s.pc + BitVec.ofNat 16 (2 * (n + 1)) := by
      rw [BitVec.add_assoc, Nat.mul_succ, Nat.add_comm, BitVec.ofNat_add]
      rfl
    rw [List.replicate_succ, serveAll, serve_step_of_progMem_nil hp hm hpc,
      ih s.advance hp hm (by omega) (by rw [State.advance_params]; omega), State.advance_pc, hsum]
    rfl

end Sys2Proof.Machine

open Sys2Proof Sys2Proof.Machine

/-- Settles O29: NOP is `advance`, its row fixes every bit, and the run of NOPs is by induction on the requests. -/
theorem nopAdvancesAndChangesNothingElse : Obligations.NopAdvancesAndChangesNothingElse := by
  unfold Obligations.NopAdvancesAndChangesNothingElse
  refine ⟨fun s => ?_, fun w => ?_, fun s n => serveAll_steps_of_progMem_nil n s, fun s hp hend => ?_⟩
  · exact ⟨s.advance, exec_nop s, pc_add_two_toNat s.pc, fun q => State.readReg_congr s.advance_regs q,
      s.advance_sreg, s.advance_sp, s.advance_memoriesKept⟩
  · rw [decode_eq_ok_iff (row := ⟨.nop, 0xFFFF, 0x0000⟩) (by decide) rfl]
    exact (and_iff_left rfl).symm
  · have hpc : ¬ pcValid s = true := by rw [pcValid_iff]; omega
    exact step_of_fetch_error hp (fetchInstr_of_pc_invalid hpc)

end

section
/-! SUPPORT. LDI (`40_nop_and_load_immediate.md` R111): its operand fields (`30_encoding.md` R83), its opcode as a
number, and O30. -/

namespace Sys2Proof

theorem fieldUpperD_val (w : Word) : (fieldUpperD w).val = 16 + w.toNat / 16 % 16 := by
  simp [fieldUpperD, BitVec.extractLsb'_toNat, Nat.shiftRight_eq_div_pow]

theorem fieldK_toNat (w : Word) : (fieldK w).toNat = w.toNat / 256 % 16 * 16 + w.toNat % 16 := by
  have hlow : w.toNat % 16 < 2 ^ 4 := Nat.mod_lt _ (by decide)
  simp only [fieldK, BitVec.toNat_append, BitVec.extractLsb'_toNat, Nat.shiftRight_eq_div_pow, Nat.pow_zero,
    Nat.div_one]
  rw [← Nat.shiftLeft_add_eq_or_of_lt hlow, Nat.shiftLeft_eq]

/-- A multiple of `2 ^ i` and a number below it share no bit. -/
theorem or_eq_add_of_dvd_of_lt {i x y : Nat} (hx : 2 ^ i ∣ x) (hy : y < 2 ^ i) : x ||| y = x + y := by
  obtain ⟨a, rfl⟩ := hx
  exact (Nat.two_pow_add_eq_or_of_lt hy a).symm

/-- The four parts of format RI share no bit, so they add up. -/
theorem encodeRI_toNat (d : Reg) (k : Byte) :
    (encodeRI 0xE000 d k).toNat = 0xE000 + k.toNat / 16 * 256 + (d.val - 16) * 16 + k.toNat % 16 := by
  have hk : k.toNat < 256 := k.isLt
  have hbase : (0xE000 : Word).toNat = 0xE000 := rfl
  have hhigh : ((k.setWidth 16 >>> 4) <<< 8).toNat = k.toNat / 16 * 256 := by
    simp [Nat.shiftLeft_eq, Nat.shiftRight_eq_div_pow]
    omega
  have hreg : (BitVec.ofNat 16 (d.val - 16) <<< 4).toNat = (d.val - 16) * 16 := by
    simp [Nat.shiftLeft_eq]
    omega
  have hlow : (k.setWidth 16 &&& 0x000F).toNat = k.toNat % 16 := by
    rw [BitVec.toNat_and, BitVec.toNat_setWidth_of_le (by decide)]
    exact Nat.and_two_pow_sub_one_eq_mod k.toNat 4
  rw [encodeRI, BitVec.toNat_or, BitVec.toNat_or, BitVec.toNat_or, hbase, hhigh, hreg, hlow,
    or_eq_add_of_dvd_of_lt (i := 12) (y := k.toNat / 16 * 256) (by decide) (by omega),
    or_eq_add_of_dvd_of_lt (i := 8) (y := (d.val - 16) * 16) (by omega) (by omega),
    or_eq_add_of_dvd_of_lt (i := 4) (y := k.toNat % 16) (by omega) (by omega)]

/-- An opcode is LDI's exactly when its top four bits are, and the operands are its fields. -/
theorem decode_eq_ldi_iff {w : Word} {d : Reg} {k : Byte} :
    decode w = .ok (.ldi d k) ↔ w &&& 0xF000 = 0xE000 ∧ fieldUpperD w = d ∧ fieldK w = k := by
  rw [decode_eq_ok_iff (row := ⟨.ldi, 0xF000, 0xE000⟩) (by decide) rfl]
  simp [instrOfFields]

theorem decode_encode_ldi {d : Reg} (hd : 16 ≤ d.val) (k : Byte) : decode (encode (.ldi d k)) = .ok (.ldi d k) := by
  have hw : (encode (.ldi d k)).toNat = _ := encodeRI_toNat d k
  have hk := k.isLt
  refine decode_eq_ldi_iff.mpr ⟨beq_iff_eq.mp (Laws.MatchesRow.ri_fits d k), Fin.ext ?_, BitVec.eq_of_toNat_eq ?_⟩
  · rw [fieldUpperD_val, hw]; omega
  · rw [fieldK_toNat, hw]; omega

namespace Machine

/-- An instruction of the common shape completes with the result in `d`, the given SREG, and all else kept. -/
theorem writeResult_next (s : State) (d : Reg) (r sreg : Byte) :
    ∃ t, writeResult s d r sreg = .next t ∧ t.readReg d = r ∧ t.sreg = sreg ∧ regResultFrame d s t :=
  ⟨_, rfl, State.readReg_writeReg_same s d r, rfl, fun _ hq => State.readReg_writeReg_other s r hq, rfl,
    ⟨fun _ => rfl, fun _ => rfl, rfl⟩, pc_add_two_toNat s.pc⟩

end Machine

end Sys2Proof

open Sys2Proof Sys2Proof.Machine

/-- Settles O30: LDI is a result written with SREG as it was, and its operands are fields of its opcode. -/
theorem ldiLoadsTheImmediate : Obligations.LdiLoadsTheImmediate := by
  unfold Obligations.LdiLoadsTheImmediate
  refine ⟨fun d k s _ => writeResult_next s d k s.sreg, fun d k hd => ⟨encodeRI_toNat d k, decode_encode_ldi hd k⟩,
    fun w => ⟨fun hw => ?_, fun ⟨_, _, h, _⟩ => (decode_eq_ldi_iff.mp h).1⟩,
    fun w d k h => of_decide_eq_true (wf_of_decode h)⟩
  have hd := fieldUpperD_val w
  exact ⟨fieldUpperD w, fieldK w, decode_eq_ldi_iff.mpr ⟨hw, rfl, rfl⟩, by omega, hd, fieldK_toNat w⟩

end

section
/-! SUPPORT. Format REL, shared by RJMP and RCALL (`42_control_flow.md` R141, R142): its opcode as a number, the opcodes
that are its own, and the target; and O37. -/

namespace Sys2Proof

/-- The opcode field of an offset is the offset modulo 4096 (R84). -/
theorem offset_toNat_eq_toInt_emod (k : Offset) : (k.toNat : Int) = k.toInt % 4096 := by
  have := k.isLt
  rw [offset_toInt]
  split <;> omega

/-- The offset takes the 12 bits the base leaves clear. -/
theorem encodeRel_toNat {base : Word} (hbase : 2 ^ 12 ∣ base.toNat) (k : Offset) :
    (encodeRel base k).toNat = base.toNat + k.toNat := by
  rw [encodeRel, BitVec.toNat_or, BitVec.toNat_setWidth_of_le (by decide), or_eq_add_of_dvd_of_lt hbase k.isLt]

/-- The opcodes that fit a row of format REL are those that decode to its instruction, with the low 12 bits as offset. -/
theorem fits_rel_row_iff {row : OpcodeRow} (hrow : row ∈ opcodeTable) {rel : Offset → Instr}
    (hrel : ∀ k, (rel k).mnemonic = row.mnemonic)
    (hfields : ∀ w, instrOfFields w row.mnemonic = rel (fieldOffset w)) (w : Word) :
    w &&& row.mask = row.value ↔ ∃ k : Offset, decode w = .ok (rel k) ∧ k.toNat = w.toNat % 4096 := by
  constructor
  · exact fun hw => ⟨fieldOffset w, (decode_eq_ok_iff hrow (hrel _)).mpr ⟨hw, hfields w⟩, fieldOffset_toNat w⟩
  · exact fun ⟨k, hk, _⟩ => ((decode_eq_ok_iff hrow (hrel k)).mp hk).1

namespace Machine

theorem exec_rjmp (k : Offset) (s : State) : exec (.rjmp k) s = .next { s with pc := relTarget s.pc k } := rfl

/-- The target with the factor of R140's formula in front. -/
theorem relTarget_toNat_two_mul (pc : Word) (k : Offset) :
    ((relTarget pc k).toNat : Int) = ((pc.toNat : Int) + 2 + 2 * k.toInt) % 65536 := by
  rw [relTarget_toNat, Int.mul_comm]

end Machine

end Sys2Proof

open Sys2Proof Sys2Proof.Machine

/-- Settles O37: RJMP writes `pc` alone, and its row is one of format REL. -/
theorem rjmpSetsTheTarget : Obligations.RjmpSetsTheTarget := by
  unfold Obligations.RjmpSetsTheTarget
  refine ⟨fun k s => ?_, fun k => ?_, fun w => ?_⟩
  · exact ⟨_, exec_rjmp k s, relTarget_toNat_two_mul s.pc k, fun q => State.readReg_congr rfl q, rfl, rfl,
      fun _ => rfl, fun _ => rfl, rfl⟩
  · exact ⟨encodeRel_toNat (base := 0xC000) (by decide) k, offset_toNat_eq_toInt_emod k, offset_toInt_range k⟩
  · exact fits_rel_row_iff (row := ⟨.rjmp, 0xF000, 0xC000⟩) (by decide) (fun _ => rfl) (fun _ => rfl) w

end

section
/-! SUPPORT. RCALL (`42_control_flow.md` R142, `20_memory.md` R54, R56, R57): what a push stores, the stack pointer at the
bottom of its range, the state a call leaves, and O38. -/

namespace Sys2Proof.Machine

/-! ### One push -/

theorem afterPush_dataByte_same {s : State} (hm : Memory.wf s.dataMem) (v : Byte) :
    (afterPush s v).dataByte s.sp.toNat = v :=
  Memory.read_write_same s.dataMem hm s.sp.toNat v

theorem afterPush_dataByte_other (s : State) (v : Byte) {a : Nat} (h : a ≠ s.sp.toNat) :
    (afterPush s v).dataByte a = s.dataByte a :=
  Memory.read_write_other h s.dataMem v

theorem afterPush_dataMem_wf {s : State} (hm : Memory.wf s.dataMem) (v : Byte) : Memory.wf (afterPush s v).dataMem :=
  Memory.write_wf hm s.sp.toNat v

/-! ### The stack pointer near its lower bound -/

theorem spDec_spMin (p : Params) : spDec p p.spMin = p.spLowClamp := if_pos le_rfl

theorem spDec_eq_spMin {p : Params} {w : Word} (h : w.toNat = p.spMin.toNat + 1) : spDec p w = p.spMin :=
  BitVec.eq_of_toNat_eq (by rw [spDec_toNat (by omega)]; omega)

/-- With room for two bytes both decrements are by one. -/
theorem spDec_spDec_toNat {p : Params} {w : Word} (h : p.spMin.toNat + 2 ≤ w.toNat) :
    (spDec p (spDec p w)).toNat = w.toNat - 2 := by
  have h1 := spDec_toNat (p := p) (w := w) (by omega)
  rw [spDec_toNat (by omega)]
  omega

/-! ### The call -/

theorem returnAddress_toNat (pc : Word) : (returnAddress pc).toNat = (pc.toNat + 2) % 65536 := pc_add_two_toNat pc

/-- The state RCALL leaves when it completes: the return address pushed low byte first, `pc` at the target. -/
def afterRcall (k : Offset) (s : State) : State :=
  { afterPush (afterPush s (lowByte (returnAddress s.pc))) (highByte (returnAddress s.pc)) with pc := relTarget s.pc k }

@[simp] theorem afterRcall_regs (k : Offset) (s : State) : (afterRcall k s).regs = s.regs := rfl
@[simp] theorem afterRcall_sreg (k : Offset) (s : State) : (afterRcall k s).sreg = s.sreg := rfl
@[simp] theorem afterRcall_pc (k : Offset) (s : State) : (afterRcall k s).pc = relTarget s.pc k := rfl
@[simp] theorem afterRcall_sp (k : Offset) (s : State) :
    (afterRcall k s).sp = spDec s.params (spDec s.params s.sp) := rfl
@[simp] theorem afterRcall_progByte (k : Offset) (s : State) (a : Nat) :
    (afterRcall k s).progByte a = s.progByte a := rfl
@[simp] theorem afterRcall_params (k : Offset) (s : State) : (afterRcall k s).params = s.params := rfl

/-- RCALL completes from every stack pointer in range (R142, R58). -/
theorem exec_rcall {s : State} (hp : s.params.Valid) (hs : s.params.InStack s.sp) (k : Offset) :
    exec (.rcall k) s = .next (afterRcall k s) := by
  rw [exec, execRcall, pushWord_ok hp hs]
  rfl

/-- The second push stores the high byte, at the decremented stack pointer. -/
theorem afterRcall_dataByte_high {s : State} (hm : Memory.wf s.dataMem) (k : Offset) :
    (afterRcall k s).dataByte (spDec s.params s.sp).toNat = highByte (returnAddress s.pc) :=
  afterPush_dataByte_same (afterPush_dataMem_wf hm _) _

/-- The low byte stays at the old stack pointer unless a clamp sent the second push there too. -/
theorem afterRcall_dataByte_low {s : State} (hm : Memory.wf s.dataMem) (k : Offset)
    (h : spDec s.params s.sp ≠ s.sp) : (afterRcall k s).dataByte s.sp.toNat = lowByte (returnAddress s.pc) := by
  have hne : s.sp.toNat ≠ (spDec s.params s.sp).toNat := fun e => h (BitVec.eq_of_toNat_eq e.symm)
  exact (afterPush_dataByte_other _ _ hne).trans (afterPush_dataByte_same hm _)

theorem afterRcall_dataByte_other (k : Offset) (s : State) {a : Nat} (hlow : a ≠ s.sp.toNat)
    (hhigh : a ≠ (spDec s.params s.sp).toNat) : (afterRcall k s).dataByte a = s.dataByte a :=
  (afterPush_dataByte_other _ _ hhigh).trans (afterPush_dataByte_other s _ hlow)

end Sys2Proof.Machine

open Sys2Proof Sys2Proof.Machine

/-- Settles O38: the state after a call read byte by byte, the three corner cases of the clamp, and RCALL's row, which is
one of format REL. -/
theorem rcallPushesTheReturnAddress : Obligations.RcallPushesTheReturnAddress := by
  unfold Obligations.RcallPushesTheReturnAddress
  refine ⟨fun k s ⟨hp, hs, _, hm, _⟩ => ?_, fun k => ?_, fun w => ?_⟩
  · refine ⟨afterRcall k s, exec_rcall hp hs k, relTarget_toNat_two_mul s.pc k, afterRcall_sp k s, ?high, ?low,
      fun _ => afterRcall_dataByte_other k s, afterRcall_progByte k s, afterRcall_params k s,
      fun q => State.readReg_congr (afterRcall_regs k s) q, afterRcall_sreg k s, ?room, ?oneMove, ?bottom⟩
    case high => rw [afterRcall_dataByte_high hm, highByte_toNat, returnAddress_toNat]
    case low =>
      intro h
      rw [afterRcall_dataByte_low hm k h, lowByte_toNat, returnAddress_toNat]
      omega
    case room => exact fun h => ⟨spDec_toNat (by omega), spDec_spDec_toNat h⟩
    case oneMove =>
      intro hclamp h
      have h1 := spDec_eq_spMin h
      exact ⟨h1, by rw [afterRcall_sp, h1, spDec_spMin, hclamp]⟩
    case bottom =>
      intro hclamp h
      have h1 : spDec s.params s.sp = s.params.spMin := by rw [h, spDec_spMin, hclamp]
      exact ⟨h1, by rw [afterRcall_sp, h1, spDec_spMin, hclamp]⟩
  · exact ⟨encodeRel_toNat (base := 0xD000) (by decide) k, offset_toNat_eq_toInt_emod k, offset_toInt_range k⟩
  · exact fits_rel_row_iff (row := ⟨.rcall, 0xF000, 0xD000⟩) (by decide) (fun _ => rfl) (fun _ => rfl) w

end

section
/-! SUPPORT. Steps that fail (`60_exceptions.md` R203, R204): the only fault of `exec` is the model's own, so
`UnsupportedInstruction` is raised by the check on EXECUTABLE alone; and O13, O12. -/

namespace Sys2Proof

/-- The two tiers split the recognised instructions (R2). -/
theorem Mnemonic.mem_tier2_iff (m : Mnemonic) : m ∈ Mnemonic.tier2 ↔ m ∉ Mnemonic.tier1 := by
  cases m <;> decide

/-- Every recognised instruction is executable by default (R9). -/
theorem Mnemonic.mem_default_executable (m : Mnemonic) : m ∈ Params.default.executable :=
  List.mem_append.mpr (or_iff_not_imp_left.mpr m.mem_tier2_iff.mpr)

namespace Machine

theorem pushWord_error {s : State} {w : Word} {f : Fault} (h : pushWord s w = .error f) :
    ∃ a, f = .dataAddressOutOfRange a := by
  unfold pushWord at h
  split at h
  · exact push_error h
  · next hlow => cases h; exact push_error hlow

theorem popWord_error {s : State} {f : Fault} (h : popWord s = .error f) : ∃ a, f = .dataAddressOutOfRange a := by
  unfold popWord at h
  split at h
  · split at h
    · cases h
    · next hlow => cases h; exact pop_error hlow
  · next hhigh => cases h; exact pop_error hhigh

/-- An instruction faults only by a stack access outside data memory (log entry 2). -/
theorem exec_fault {i : Instr} {s : State} {f : Fault} (h : exec i s = .fault f) :
    ∃ a, f = .dataAddressOutOfRange a := by
  cases i with
  | rcall k =>
    simp only [exec, execRcall] at h
    split at h
    · cases h
    · next hpush => cases h; exact pushWord_error hpush
  | ret =>
    simp only [exec, execRet] at h
    split at h
    · cases h
    · next hpop => cases h; exact popWord_error hpop
  | reti =>
    simp only [exec, execReti] at h
    split at h
    · cases h
    · next hpop => cases h; exact popWord_error hpop
  | _ => cases h

/-- Fetch refuses an instruction exactly when it is decoded at a valid `pc` and outside EXECUTABLE (R90, R204). -/
theorem fetchInstr_eq_unsupported_iff {s : State} {i : Instr} :
    fetchInstr s = .error (.unsupportedInstruction i) ↔
      pcValid s = true ∧ decode (opcodeAt s) = .ok i ∧ i.mnemonic ∉ s.params.executable := by
  constructor
  · intro h
    unfold fetchInstr at h
    split at h
    · next hpc =>
      split at h
      · next j hj =>
        split at h
        · cases h
        · next hx => cases h; exact ⟨hpc, hj, by simpa [isExecutable] using hx⟩
      · cases h
    · cases h
  · rintro ⟨hpc, hi, hx⟩
    simp [fetchInstr, hpc, hi, isExecutable, hx]

/-- A step raises `UnsupportedInstruction` exactly when its fetch does: no instruction raises it while it executes. -/
theorem step_eq_unsupported_iff {s : State} (hp : s.params.Valid) {i : Instr} :
    step s = .fault (.unsupportedInstruction i) ↔ fetchInstr s = .error (.unsupportedInstruction i) := by
  refine ⟨fun h => ?_, step_of_fetch_error hp⟩
  obtain ⟨hn, -⟩ | ⟨-, f, hf, e⟩ | ⟨-, j, -, e⟩ := step_cases s
  · exact absurd hp hn
  · cases e.symm.trans h
    exact hf
  · obtain ⟨a, ha⟩ := exec_fault (e.symm.trans h)
    cases ha

theorem params_valid_of_step_fault {s : State} {f : Fault} (h : step s = .fault f) : s.params.Valid := by
  obtain ⟨-, e⟩ | ⟨hp, -⟩ | ⟨hp, -⟩ := step_cases s
  · cases e.symm.trans h
  · exact hp
  · exact hp

end Machine

end Sys2Proof

open Sys2Proof Sys2Proof.Machine

/-- Settles O13: the reply to a step that faults holds the state it started from. -/
theorem errorsChangeNothing : Obligations.ErrorsChangeNothing := by
  unfold Obligations.ErrorsChangeNothing
  exact fun _ _ => serve_step_of_fault

/-- Settles O12: the check on EXECUTABLE fails never by default, and exactly for Tier 2 with Tier 1 alone. -/
theorem unsupportedInstructionIsTheExecutableSplit : Obligations.UnsupportedInstructionIsTheExecutableSplit := by
  unfold Obligations.UnsupportedInstructionIsTheExecutableSplit
  refine ⟨fun s hx i h => ?_, fun s hp hx hpc i hi => ?_⟩
  · have hfetch := (step_eq_unsupported_iff (params_valid_of_step_fault h)).mp h
    obtain ⟨-, -, hout⟩ := fetchInstr_eq_unsupported_iff.mp hfetch
    exact hout (hx ▸ i.mnemonic.mem_default_executable)
  · have hsplit : i.mnemonic ∈ Mnemonic.tier2 ↔ step s = .fault (.unsupportedInstruction i) := by
      rw [step_eq_unsupported_iff hp, fetchInstr_eq_unsupported_iff, hx, Mnemonic.mem_tier2_iff]
      simp only [hpc, hi, true_and]
    exact ⟨hsplit, fun h => serve_step_of_fault (hsplit.mp h)⟩

end

section
/-! SUPPORT. Every instruction completes from a stack pointer in range (`60_exceptions.md` R216), and O21. -/

namespace Sys2Proof.Machine

theorem exec_completes {s : State} (hp : s.params.Valid) (hs : s.params.InStack s.sp) (i : Instr) :
    ∃ t, exec i s = .next t := by
  cases i with
  | rcall k => exact ⟨_, exec_rcall hp hs k⟩
  | ret => rw [exec, execRet, popWord_ok hp hs]; exact ⟨_, rfl⟩
  | reti => rw [exec, execReti, popWord_ok hp hs]; exact ⟨_, rfl⟩
  | _ => exact ⟨_, rfl⟩

/-- An instruction moves `sp` only as pushes and pops do, which stay in the range (R57). -/
theorem exec_keeps_inStack {i : Instr} {s t : State} (hp : s.params.Valid) (hs : s.params.InStack s.sp)
    (h : exec i s = .next t) : t.params.InStack t.sp := by
  obtain ⟨-, hparams, ⟨-, hsp⟩ | ⟨-, hsp⟩ | ⟨-, -, hsp, -⟩⟩ := exec_next_cases h
  · rw [hparams, hsp]; exact hs
  · rw [hparams, hsp]; exact spInc_inStack hp (spInc_inStack hp hs)
  · rw [hparams, hsp]; exact spDec_inStack hp (spDec_inStack hp hs)

theorem exec_keeps_params_valid {i : Instr} {s t : State} (hp : s.params.Valid) (h : exec i s = .next t) :
    t.params.Valid := by
  obtain ⟨-, hparams, -⟩ := exec_next_cases h
  exact hparams ▸ hp

end Sys2Proof.Machine

open Sys2Proof Sys2Proof.Machine

/-- Settles O21: the instruction completes, and an invalid `pc` it leaves is found by the next fetch. -/
theorem noInstructionFailsDuringExecution : Obligations.NoInstructionFailsDuringExecution := by
  unfold Obligations.NoInstructionFailsDuringExecution
  intro i s ⟨hp, hs, _⟩
  obtain ⟨t, ht⟩ := exec_completes hp hs i
  refine ⟨t, ht, exec_keeps_inStack hp hs ht, fun hpc => ?_⟩
  exact step_of_fetch_error (exec_keeps_params_valid hp ht) (fetchInstr_of_pc_invalid (by rw [hpc]; decide))

end

section
/-! SUPPORT. Two writes of flags (`00_scope.md` R12), the flag a BSET or BCLR names, SREG carried through the stack, and
the I flag through every instruction (`60_exceptions.md` R210); and O28. -/

namespace Sys2Proof.Machine

/-! ### SREG as its eight flags -/

theorem exists_flag_of_bit {n : Nat} (h : n < 8) : ∃ f, flagBit f = n := by
  interval_cases n
  exacts [⟨.c, rfl⟩, ⟨.z, rfl⟩, ⟨.n, rfl⟩, ⟨.v, rfl⟩, ⟨.s, rfl⟩, ⟨.h, rfl⟩, ⟨.t, rfl⟩, ⟨.i, rfl⟩]

theorem sreg_ext {x y : Byte} (h : ∀ f, getFlag x f = getFlag y f) : x = y := by
  refine BitVec.eq_of_getLsbD_eq fun n hn => ?_
  obtain ⟨f, rfl⟩ := exists_flag_of_bit hn
  exact h f

@[simp] theorem putFlag_putFlag_same (x : Byte) (f : Flag) (a b : Bool) :
    putFlag (putFlag x f a) f b = putFlag x f b := by
  refine sreg_ext fun g => ?_
  by_cases hg : g = f <;> simp [getFlag_putFlag, hg]

theorem putFlag_comm {f g : Flag} (h : f ≠ g) (x : Byte) (a b : Bool) :
    putFlag (putFlag x f a) g b = putFlag (putFlag x g b) f a := by
  refine sreg_ext fun k => ?_
  by_cases hf : k = f
  · subst hf; simp [getFlag_putFlag, h]
  · simp [getFlag_putFlag, hf]

@[simp] theorem putFlag_getFlag (x : Byte) (f : Flag) : putFlag x f (getFlag x f) = x := by
  refine sreg_ext fun g => ?_
  by_cases hg : g = f <;> simp [getFlag_putFlag, hg]

/-- The operand of BSET and BCLR names a flag, and 7 names I (R26, R92). -/
theorem exists_flag_of_index (k : FlagIndex) : ∃ f, flagBit f = k.toNat ∧ (k = 7 ↔ f = .i) := by
  obtain ⟨f, hf⟩ := exists_flag_of_bit k.isLt
  refine ⟨f, hf, fun h => flagBit_inj (by rw [hf, h]; rfl), fun h => BitVec.eq_of_toNat_eq ?_⟩
  rw [← hf, h]
  rfl

/-! ### SREG carried through the stack -/

/-- The state with SREG, and nothing else, changed by `g`. -/
def State.mapSreg (g : Byte → Byte) (s : State) : State := { s with sreg := g s.sreg }

@[simp] theorem State.mapSreg_pc (g : Byte → Byte) (s : State) : (s.mapSreg g).pc = s.pc := rfl

/-- The outcome with `g` applied to its next state. -/
def mapNext (g : State → State) : Host.Outcome State Fault Refusal → Host.Outcome State Fault Refusal
  | .next t => .next (g t)
  | .fault f => .fault f
  | .refused r => .refused r

theorem push_mapSreg (g : Byte → Byte) (s : State) (v : Byte) :
    push (s.mapSreg g) v = (push s v).map (State.mapSreg g) := by
  rw [push_eq, push_eq, apply_ite (Except.map _)]
  rfl

theorem pop_mapSreg (g : Byte → Byte) (s : State) :
    pop (s.mapSreg g) = (pop s).map (Prod.map id (State.mapSreg g)) := by
  rw [pop_eq, pop_eq, apply_ite (Except.map _)]
  rfl

theorem pushWord_mapSreg (g : Byte → Byte) (s : State) (w : Word) :
    pushWord (s.mapSreg g) w = (pushWord s w).map (State.mapSreg g) := by
  rw [pushWord, pushWord, push_mapSreg]
  cases push s (lowByte w) with
  | ok t => exact push_mapSreg g t (highByte w)
  | error f => rfl

theorem popWord_mapSreg (g : Byte → Byte) (s : State) :
    popWord (s.mapSreg g) = (popWord s).map (Prod.map id (State.mapSreg g)) := by
  rw [popWord, popWord, pop_mapSreg]
  cases pop s with
  | ok p =>
    obtain ⟨hi, t⟩ := p
    simp only [Except.map, Prod.map, id]
    rw [pop_mapSreg]
    cases pop t <;> rfl
  | error f => rfl

/-- A call carries SREG through as it is. -/
theorem exec_rcall_mapSreg (g : Byte → Byte) (k : Offset) (s : State) :
    exec (.rcall k) (s.mapSreg g) = mapNext (State.mapSreg g) (exec (.rcall k) s) := by
  simp only [exec, execRcall, State.mapSreg_pc, pushWord_mapSreg]
  cases pushWord s (returnAddress s.pc) <;> rfl

/-- A return carries SREG through as it is. -/
theorem exec_ret_mapSreg (g : Byte → Byte) (s : State) :
    exec .ret (s.mapSreg g) = mapNext (State.mapSreg g) (exec .ret s) := by
  simp only [exec, execRet, popWord_mapSreg]
  cases popWord s <;> rfl

/-! ### The I flag -/

/-- The state with another I flag. -/
def State.withI (b : Bool) (s : State) : State := s.mapSreg (putFlag · .i b)

theorem State.withI_flag (b : Bool) (s : State) : (s.withI b).flag .i = b := getFlag_putFlag_same s.sreg .i b

theorem State.withI_flag_self (s : State) : s.withI (s.flag .i) = s := by
  simp [State.withI, State.mapSreg, State.flag]

/-- I after an instruction that found it at `b` (R210). -/
def flagIAfter (i : Instr) (b : Bool) : Bool :=
  if i = .reti ∨ i = .bset 7 then true else if i = .bclr 7 then false else b

variable (x rd rr r : Byte) (b : Bool)

@[simp] theorem putResultFlags_putFlag_i (v : Bool) :
    putResultFlags (putFlag x .i b) r v = putFlag (putResultFlags x r v) .i b := by
  simp [putResultFlags, putFlag_comm (f := .i)]

@[simp] theorem addFlags_putFlag_i : addFlags (putFlag x .i b) rd rr r = putFlag (addFlags x rd rr r) .i b := by
  simp [addFlags, putFlag_comm (f := .i)]

@[simp] theorem subFlags_putFlag_i : subFlags (putFlag x .i b) rd rr r = putFlag (subFlags x rd rr r) .i b := by
  simp [subFlags, putFlag_comm (f := .i)]

@[simp] theorem incFlags_putFlag_i : incFlags (putFlag x .i b) r = putFlag (incFlags x r) .i b :=
  putResultFlags_putFlag_i x r b _

@[simp] theorem decFlags_putFlag_i : decFlags (putFlag x .i b) r = putFlag (decFlags x r) .i b :=
  putResultFlags_putFlag_i x r b _

@[simp] theorem logicFlags_putFlag_i : logicFlags (putFlag x .i b) r = putFlag (logicFlags x r) .i b :=
  putResultFlags_putFlag_i x r b _

@[simp] theorem comFlags_putFlag_i : comFlags (putFlag x .i b) r = putFlag (comFlags x r) .i b := by
  simp [comFlags, putFlag_comm (f := .i)]

@[simp] theorem shiftFlags_putFlag_i : shiftFlags (putFlag x .i b) rd r = putFlag (shiftFlags x rd r) .i b := by
  simp [shiftFlags, putFlag_comm (f := .i)]

/-- A write of any flag after one of I: the later write wins when it is to I too. -/
theorem putFlag_putFlag_i (f : Flag) (v : Bool) :
    putFlag (putFlag x .i b) f v = putFlag (putFlag x f v) .i (if f = .i then v else b) := by
  by_cases hf : f = .i
  · subst hf; simp
  · rw [if_neg hf, putFlag_comm (Ne.symm hf)]

theorem setSregBit_putFlag_i (k : FlagIndex) :
    setSregBit (putFlag x .i b) k.toNat = putFlag (setSregBit x k.toNat) .i (if k = 7 then true else b) := by
  obtain ⟨f, hf, hi⟩ := exists_flag_of_index k
  rw [← hf, if_congr hi rfl rfl]
  exact putFlag_putFlag_i x b f true

theorem clearSregBit_putFlag_i (k : FlagIndex) :
    clearSregBit (putFlag x .i b) k.toNat = putFlag (clearSregBit x k.toNat) .i (if k = 7 then false else b) := by
  obtain ⟨f, hf, hi⟩ := exists_flag_of_index k
  rw [← hf, if_congr hi rfl rfl]
  exact putFlag_putFlag_i x b f false

variable (s : State)

@[simp] theorem State.withI_sreg : (s.withI b).sreg = putFlag s.sreg .i b := rfl

@[simp] theorem State.withI_readReg (d : Reg) : (s.withI b).readReg d = s.readReg d := rfl

@[simp] theorem State.withI_flag_c : (s.withI b).flag .c = s.flag .c :=
  getFlag_putFlag_other s.sreg (by decide) b

/-- A result with the same flags but I leaves a state that differs in I alone. -/
@[simp] theorem writeResult_withI (d : Reg) :
    writeResult (s.withI b) d r (putFlag x .i b) = mapNext (State.withI b) (writeResult s d r x) := rfl

@[simp] theorem writeSreg_withI (c : Bool) :
    writeSreg (s.withI b) (putFlag x .i c) = mapNext (State.withI c) (writeSreg s x) := rfl

/-- RETI writes I whatever it was. -/
theorem exec_reti_withI : exec .reti (s.withI b) = mapNext (State.withI true) (exec .reti s) := by
  simp only [exec, execReti, State.withI, popWord_mapSreg]
  cases popWord s with
  | ok p => simp [Except.map, mapNext, State.withI, State.mapSreg]
  | error f => rfl

/-- Nothing reads I: with another I at its start an instruction answers the same, but for I (R210). -/
theorem exec_withI (i : Instr) : exec i (s.withI b) = mapNext (State.withI (flagIAfter i b)) (exec i s) := by
  cases i with
  | nop | rjmp | ldi => rfl
  | add | sub | inc | dec => simp [exec, execAdd, execSub, execInc, execDec, flagIAfter]
  | and | eor | or | com => simp [exec, execAnd, execEor, execOr, execCom, flagIAfter]
  | lsr | asr | ror => simp [exec, execLsr, execAsr, execRor, flagIAfter]
  | bset k => simp [exec, execBset, setSregBit_putFlag_i, flagIAfter]
  | bclr k => simp [exec, execBclr, clearSregBit_putFlag_i, flagIAfter]
  | rcall k => exact exec_rcall_mapSreg _ k s
  | ret => exact exec_ret_mapSreg _ s
  | reti => exact exec_reti_withI b s

end Sys2Proof.Machine

open Sys2Proof Sys2Proof.Machine

/-- Settles O28: all three clauses are what `exec_withI` says, the second of I as the state holds it. -/
theorem interruptFlagHasNoEffect : Obligations.InterruptFlagHasNoEffect := by
  unfold Obligations.InterruptFlagHasNoEffect
  refine ⟨fun s => State.initial_flag s.params .i, fun i s t h => ?_, fun i s b => ⟨fun t h => ?_, fun f h => ?_⟩⟩
  · have hself : Host.Outcome.next t = mapNext (State.withI (flagIAfter i (s.flag .i))) (.next t) := by
      rw [← h, ← exec_withI, State.withI_flag_self]
    rw [Host.Outcome.next.inj hself, State.withI_flag, flagIAfter]
  · exact ⟨flagIAfter i b, (exec_withI b s i).trans (by rw [h]; rfl)⟩
  · exact (exec_withI b s i).trans (by rw [h]; rfl)

end

section
/-! SUPPORT. The check of a step that decodes (`70_reset_and_hazards.md` R240), and O10. -/

namespace Sys2Proof.Machine

/-- Fetch fails with decode's own error at a valid `pc` (R202). -/
theorem fetchInstr_of_decode_error {s : State} {w : Word} (hpc : pcValid s = true)
    (hw : decode (opcodeAt s) = .error (.unknownOpcode w)) : fetchInstr s = .error (.unknownOpcode w) := by
  rw [fetchInstr, if_pos hpc, hw]

end Sys2Proof.Machine

open Sys2Proof Sys2Proof.Machine

/-- Settles O10: what fetch answers after each of its checks, and the step answers with it (R205). -/
theorem stepRunsTheDecodedInstruction : Obligations.StepRunsTheDecodedInstruction := by
  unfold Obligations.StepRunsTheDecodedInstruction
  intro s hp
  refine ⟨fun hbad => ?_, fun heven hroom => ?_⟩
  · have hpc : ¬ pcValid s = true := by rw [pcValid_iff]; omega
    exact step_of_fetch_error hp (fetchInstr_of_pc_invalid hpc)
  · have hpc : pcValid s = true := pcValid_iff.mpr ⟨heven, hroom⟩
    exact ⟨fun w hw => step_of_fetch_error hp (fetchInstr_of_decode_error hpc hw),
      fun i hi hx => step_of_fetch_error hp (fetchInstr_eq_unsupported_iff.mpr ⟨hpc, hi, hx⟩),
      fun i hi hx => step_of_fetch_ok hp (fetchInstr_of_decode hpc hi hx)⟩

end

section
/-! SUPPORT. What a flat load answers (`70_reset_and_hazards.md` R233, R234), and O56. -/

namespace Sys2Proof.Machine

@[simp] theorem erase_progByte (s : State) (a : Nat) : (erase s).progByte a = 0 := Memory.read_nil a

/-- The request answers what the same flat load of the erased state answers (R234). -/
theorem serve_loadFromVector (s : State) (bytes : List Byte) :
    serve s (.loadFromVector bytes) = serve (erase s) (.loadFlatBinary bytes) := rfl

theorem serve_loadFlatBinary_of_fits {s : State} {bytes : List Byte} (h : bytes.length ≤ s.params.progSize) :
    serve s (.loadFlatBinary bytes) =
      { state := { s with progMem := Memory.writeBytes s.progMem 0 bytes }, error := none } := by
  rw [serve, loadFlatBinary, if_pos h]
  rfl

theorem serve_loadFlatBinary_of_oversize {s : State} {bytes : List Byte} (h : s.params.progSize < bytes.length) :
    serve s (.loadFlatBinary bytes) = { state := s, error := some (.load .capacityExceeded) } := by
  rw [serve, loadFlatBinary, if_neg (Nat.not_le.mpr h)]
  rfl

/-- A flat load leaves `pc` alone, whether the image fits or not (R233). -/
theorem serve_loadFlatBinary_pc (s : State) (bytes : List Byte) :
    (serve s (.loadFlatBinary bytes)).state.pc = s.pc := by
  obtain h | h := Nat.lt_or_ge s.params.progSize bytes.length
  · rw [serve_loadFlatBinary_of_oversize h]
  · rw [serve_loadFlatBinary_of_fits h]

/-- An image that fits stands at the addresses from 0 on (R233). -/
theorem serve_loadFlatBinary_progByte_in {s : State} {bytes : List Byte} (hm : Memory.wf s.progMem)
    (h : bytes.length ≤ s.params.progSize) (j : Nat) (hj : j < bytes.length) :
    (serve s (.loadFlatBinary bytes)).state.progByte j = bytes[j] := by
  rw [serve_loadFlatBinary_of_fits h]
  simpa [State.progByte] using Memory.read_writeBytes_at s.progMem hm 0 j bytes hj

/-- A flat load leaves every byte past its image alone (R233). -/
theorem serve_loadFlatBinary_progByte_above {s : State} {bytes : List Byte} (h : bytes.length ≤ s.params.progSize)
    (j : Nat) (hj : bytes.length ≤ j) : (serve s (.loadFlatBinary bytes)).state.progByte j = s.progByte j := by
  rw [serve_loadFlatBinary_of_fits h]
  exact Memory.read_writeBytes_other s.progMem 0 j bytes (.inr (by rwa [Nat.zero_add]))

end Sys2Proof.Machine

open Sys2Proof Sys2Proof.Machine

/-- Settles O56: a flat load of the erased state, whose program memory is empty, so every byte outside the image is 0. -/
theorem vectorLoadErasesFirst : Obligations.VectorLoadErasesFirst := by
  unfold Obligations.VectorLoadErasesFirst
  intro s bytes
  rw [serve_loadFromVector]
  refine ⟨rfl, serve_loadFlatBinary_pc (erase s) bytes, fun hfits => ?_, fun hover => ?_⟩
  · exact ⟨congrArg Reply.error (serve_loadFlatBinary_of_fits (s := erase s) hfits),
      serve_loadFlatBinary_progByte_in (s := erase s) Memory.nil_wf hfits,
      fun j hj => (serve_loadFlatBinary_progByte_above (s := erase s) hfits j hj).trans (erase_progByte s j)⟩
  · rw [serve_loadFlatBinary_of_oversize (s := erase s) hover]
    exact ⟨rfl, erase_progByte s⟩

end

section
/-! SUPPORT. The operand fields as numbers (`30_encoding.md` section 2), and O4 and O6. -/

namespace Sys2Proof

theorem fieldD_val (w : Word) : (fieldD w).val = w.toNat / 16 % 32 := by
  simp [fieldD, BitVec.extractLsb'_toNat, Nat.shiftRight_eq_div_pow]

theorem fieldR_val (w : Word) : (fieldR w).val = w.toNat / 512 % 2 * 16 + w.toNat % 16 := by
  have hlow : w.toNat % 16 < 2 ^ 4 := Nat.mod_lt _ (by decide)
  simp only [fieldR, BitVec.toNat_append, BitVec.extractLsb'_toNat, Nat.shiftRight_eq_div_pow, Nat.pow_zero,
    Nat.div_one, Nat.pow_one]
  rw [← Nat.shiftLeft_add_eq_or_of_lt hlow, Nat.shiftLeft_eq]

theorem fieldS_toNat (w : Word) : (fieldS w).toNat = w.toNat / 16 % 8 := by
  simp [fieldS, BitVec.extractLsb'_toNat, Nat.shiftRight_eq_div_pow]

end Sys2Proof

open Sys2Proof

/-- Settles O4: each field's value, LDI's two from the lemmas of R83. -/
theorem operandFieldsAreTheNumberedBits : Obligations.OperandFieldsAreTheNumberedBits := by
  unfold Obligations.OperandFieldsAreTheNumberedBits
  exact fun w => ⟨fieldD_val w, fieldR_val w, fieldUpperD_val w, fieldK_toNat w, fieldS_toNat w⟩

/-- Settles O6: ten words, decoded one by one. -/
theorem sampleWordsDecode : Obligations.SampleWordsDecode := by
  unfold Obligations.SampleWordsDecode
  exact ⟨by decide, by decide, by decide, by decide, by decide, by decide, by decide, by decide, by decide, by decide⟩

end

section
/-! SUPPORT. Decode undoes encode (`30_encoding.md` sections 2 and 3): the fields of an assembled opcode are its
operands, and it fits the row of its name; and O1. -/

namespace Sys2Proof

/-! ### The fields of an assembled opcode, format by format -/

theorem encodeRR_toNat {base : Word} (hbase : 2 ^ 10 ∣ base.toNat) (d r : Reg) :
    (encodeRR base d r).toNat = base.toNat + r.val / 16 * 512 + d.val * 16 + r.val % 16 := by
  have hrhigh : ((BitVec.ofNat 16 r.val >>> 4) <<< 9).toNat = r.val / 16 * 512 := by
    simp [Nat.shiftLeft_eq, Nat.shiftRight_eq_div_pow]
    omega
  have hreg : (BitVec.ofNat 16 d.val <<< 4).toNat = d.val * 16 := by
    simp [Nat.shiftLeft_eq]
    omega
  have hrlow : (BitVec.ofNat 16 r.val &&& 0x000F).toNat = r.val % 16 := by
    rw [BitVec.toNat_and, BitVec.toNat_ofNat, Nat.mod_eq_of_lt (by omega)]
    exact Nat.and_two_pow_sub_one_eq_mod r.val 4
  rw [encodeRR, BitVec.toNat_or, BitVec.toNat_or, BitVec.toNat_or, hrhigh, hreg, hrlow,
    or_eq_add_of_dvd_of_lt (i := 10) (y := r.val / 16 * 512) hbase (by omega),
    or_eq_add_of_dvd_of_lt (i := 9) (y := d.val * 16) (by omega) (by omega),
    or_eq_add_of_dvd_of_lt (i := 4) (y := r.val % 16) (by omega) (by omega)]

theorem fieldD_encodeRR {base : Word} (hbase : 2 ^ 10 ∣ base.toNat) (d r : Reg) :
    fieldD (encodeRR base d r) = d := by
  refine Fin.ext ?_
  rw [fieldD_val, encodeRR_toNat hbase]
  omega

theorem fieldR_encodeRR {base : Word} (hbase : 2 ^ 10 ∣ base.toNat) (d r : Reg) :
    fieldR (encodeRR base d r) = r := by
  refine Fin.ext ?_
  rw [fieldR_val, encodeRR_toNat hbase]
  omega

/-- A base that leaves the bits of `d` clear adds nothing to the field. -/
theorem fieldD_encodeR1 {base : Word} (hbase : base.extractLsb' 4 5 = 0) (d : Reg) :
    fieldD (encodeR1 base d) = d := by
  have hor : fieldD (encodeR1 base d) = fieldD (BitVec.ofNat 16 d.val <<< 4) := by
    simp [fieldD, encodeR1, BitVec.extractLsb'_or, hbase]
  refine Fin.ext ?_
  rw [hor, fieldD_val]
  simp [Nat.shiftLeft_eq]
  omega

/-- A base that leaves the bits of `s` clear adds nothing to the field. -/
theorem fieldS_encodeSF {base : Word} (hbase : base.extractLsb' 4 3 = 0) (s : FlagIndex) :
    fieldS (encodeSF base s) = s := by
  have hs : s.toNat < 8 := s.isLt
  have hor : fieldS (encodeSF base s) = fieldS (s.setWidth 16 <<< 4) := by
    simp [fieldS, encodeSF, BitVec.extractLsb'_or, hbase]
  refine BitVec.eq_of_toNat_eq ?_
  rw [hor, fieldS_toNat]
  simp [Nat.shiftLeft_eq]
  omega

theorem fieldOffset_encodeRel {base : Word} (hbase : 2 ^ 12 ∣ base.toNat) (k : Offset) :
    fieldOffset (encodeRel base k) = k := by
  have hk : k.toNat < 4096 := k.isLt
  refine BitVec.eq_of_toNat_eq ?_
  rw [fieldOffset_toNat, encodeRel_toNat hbase]
  omega

/-! ### All instructions -/

/-- The fields of the opcode of a well-formed instruction hold its operands. -/
theorem instrOfFields_encode {i : Instr} (hi : i.wf = true) : instrOfFields (encode i) i.mnemonic = i := by
  cases i with
  | nop | ret | reti => rfl
  | add d r | sub d r | and d r | eor d r | or d r =>
    simp (disch := decide) only [instrOfFields, encode, Instr.mnemonic, fieldD_encodeRR, fieldR_encodeRR]
  | com d | inc d | asr d | lsr d | ror d | dec d =>
    simp (disch := decide) only [instrOfFields, encode, Instr.mnemonic, fieldD_encodeR1]
  | bset s | bclr s => simp (disch := decide) only [instrOfFields, encode, Instr.mnemonic, fieldS_encodeSF]
  | rjmp k | rcall k => simp (disch := decide) only [instrOfFields, encode, Instr.mnemonic, fieldOffset_encodeRel]
  | ldi d k => exact (eq_instrOfFields_of_decode (decode_encode_ldi (of_decide_eq_true hi) k)).symm

/-- The opcode of every instruction fits the row of its name (R81, R86). -/
theorem encode_matchesRow (i : Instr) : Laws.MatchesRow.Statement i := by
  cases i with
  | nop => exact Laws.MatchesRow.nop
  | add d r => exact Laws.MatchesRow.add d r
  | sub d r => exact Laws.MatchesRow.sub d r
  | and d r => exact Laws.MatchesRow.and d r
  | eor d r => exact Laws.MatchesRow.eor d r
  | or d r => exact Laws.MatchesRow.or d r
  | com d => exact Laws.MatchesRow.com d
  | inc d => exact Laws.MatchesRow.inc d
  | asr d => exact Laws.MatchesRow.asr d
  | lsr d => exact Laws.MatchesRow.lsr d
  | ror d => exact Laws.MatchesRow.ror d
  | dec d => exact Laws.MatchesRow.dec d
  | bset s => exact Laws.MatchesRow.bset s
  | bclr s => exact Laws.MatchesRow.bclr s
  | ret => exact Laws.MatchesRow.ret
  | reti => exact Laws.MatchesRow.reti
  | rjmp k => exact Laws.MatchesRow.rjmp k
  | rcall k => exact Laws.MatchesRow.rcall k
  | ldi d k => exact Laws.MatchesRow.ldi d k

theorem decode_encode {i : Instr} (hi : i.wf = true) : decode (encode i) = .ok i := by
  obtain ⟨row, hrow, hname, hfits⟩ := encode_matchesRow i
  rw [decode_of_rowMatches hrow hfits, hname, instrOfFields_encode hi]

end Sys2Proof

open Sys2Proof

/-- Settles O1: the opcode fits the row of its name, and its fields are the operands. -/
theorem decodeOfEncodeIsTheInstruction : Obligations.DecodeOfEncodeIsTheInstruction := by
  unfold Obligations.DecodeOfEncodeIsTheInstruction
  exact fun _ => decode_encode

end

section
/-! SUPPORT. Encode undoes decode (`30_encoding.md` section 3): the operand fields put back in place are the bits of the
opcode that its row does not fix; and O2. -/

namespace Sys2Proof

variable (base w : Word)

/-! ### Each operand put back in place, as a mask of the opcode -/

/-- Bits taken from an opcode and put back where they were are a mask of it. -/
theorem extract_in_place (a n : Nat) :
    (w.extractLsb' a n).setWidth 16 <<< a = w &&& ((BitVec.allOnes n).setWidth 16 <<< a) := by
  refine BitVec.eq_of_getLsbD_eq fun i hi => ?_
  by_cases ha : i < a
  · simp [ha]
  · simp [ha, hi, Nat.add_sub_cancel' (Nat.not_lt.mp ha), Bool.and_comm]

/-- The part of a joined operand above its low four bits. -/
theorem append_high {m : Nat} (hm : m ≤ 12) (x : BitVec m) (y : BitVec 4) :
    (x ++ y).setWidth 16 >>> 4 = x.setWidth 16 := by
  refine BitVec.eq_of_getLsbD_eq fun i hi => ?_
  simp only [BitVec.getLsbD_ushiftRight, BitVec.getLsbD_setWidth, BitVec.getLsbD_append, hi, decide_true]
  rw [if_neg (by omega), Nat.add_sub_cancel_left]
  by_cases h : i < m
  · simp [show 4 + i < 16 by omega]
  · simp [BitVec.getLsbD_of_ge x i (by omega)]

/-- The low four bits of a joined operand. -/
theorem append_low {m : Nat} (x : BitVec m) (y : BitVec 4) :
    (x ++ y).setWidth 16 &&& 0x000F = y.setWidth 16 := by
  have hmask : ∀ i < 16, (0x000F : Word).getLsbD i = decide (i < 4) := by decide
  refine BitVec.eq_of_getLsbD_eq fun i hi => ?_
  simp only [BitVec.getLsbD_and, BitVec.getLsbD_setWidth, BitVec.getLsbD_append, hi, hmask i hi, decide_true]
  by_cases h : i < 4
  · simp [h]
  · simp [h, BitVec.getLsbD_of_ge y i (by omega)]

theorem fieldD_in_place : BitVec.ofNat 16 (fieldD w).val <<< 4 = w &&& 0x01F0 := by
  simp only [fieldD, BitVec.ofNat_toNat]
  exact extract_in_place w 4 5

theorem fieldR_high_in_place : (BitVec.ofNat 16 (fieldR w).val >>> 4) <<< 9 = w &&& 0x0200 := by
  simp only [fieldR, BitVec.ofNat_toNat, append_high (m := 1) (by decide)]
  exact extract_in_place w 9 1

theorem fieldR_low_in_place : BitVec.ofNat 16 (fieldR w).val &&& 0x000F = w &&& 0x000F := by
  simp only [fieldR, BitVec.ofNat_toNat, append_low]
  exact (BitVec.shiftLeft_zero _).symm.trans (extract_in_place w 0 4)

theorem fieldS_in_place : (fieldS w).setWidth 16 <<< 4 = w &&& 0x0070 := extract_in_place w 4 3

theorem fieldOffset_in_place : (fieldOffset w).setWidth 16 = w &&& 0x0FFF := 
  (BitVec.shiftLeft_zero _).symm.trans (extract_in_place w 0 12)

theorem fieldUpperD_in_place : BitVec.ofNat 16 ((fieldUpperD w).val - 16) <<< 4 = w &&& 0x00F0 := by
  simp only [fieldUpperD, Nat.add_sub_cancel_left, BitVec.ofNat_toNat]
  exact extract_in_place w 4 4

theorem fieldK_high_in_place : ((fieldK w).setWidth 16 >>> 4) <<< 8 = w &&& 0x0F00 := by
  simp only [fieldK, append_high (m := 4) (by decide)]
  exact extract_in_place w 8 4

theorem fieldK_low_in_place : (fieldK w).setWidth 16 &&& 0x000F = w &&& 0x000F := by
  simp only [fieldK, append_low]
  exact (BitVec.shiftLeft_zero _).symm.trans (extract_in_place w 0 4)

/-! ### Formats and instructions -/

theorem or_and_and (a b : Word) : base ||| (w &&& a) ||| (w &&& b) = base ||| (w &&& (a ||| b)) := by
  rw [BitVec.or_assoc, BitVec.and_or_distrib_left]

theorem encodeRR_fields : encodeRR base (fieldD w) (fieldR w) = base ||| (w &&& 0x03FF) := by
  rw [encodeRR, fieldR_high_in_place, fieldD_in_place, fieldR_low_in_place, or_and_and, or_and_and]
  rfl

theorem encodeR1_fields : encodeR1 base (fieldD w) = base ||| (w &&& 0x01F0) := by
  rw [encodeR1, fieldD_in_place]

theorem encodeSF_fields : encodeSF base (fieldS w) = base ||| (w &&& 0x0070) := by
  rw [encodeSF, fieldS_in_place]

theorem encodeRel_fields : encodeRel base (fieldOffset w) = base ||| (w &&& 0x0FFF) := by
  rw [encodeRel, fieldOffset_in_place]

theorem encodeRI_fields : encodeRI base (fieldUpperD w) (fieldK w) = base ||| (w &&& 0x0FFF) := by
  rw [encodeRI, fieldK_high_in_place, fieldUpperD_in_place, fieldK_low_in_place, or_and_and, or_and_and]
  rfl

/-- An instruction that takes nothing from the opcode fixes every bit. -/
theorem or_and_zero : base = base ||| (w &&& 0x0000) := by simp

/-- Whatever the row, assembling the fields of an opcode gives the row's value and the opcode's other bits. -/
theorem encode_instrOfFields : ∀ row ∈ opcodeTable,
    encode (instrOfFields w row.mnemonic) = row.value ||| (w &&& ~~~row.mask) := by
  simp only [opcodeTable, List.forall_mem_cons, List.not_mem_nil, false_implies, implies_true, and_true]
  exact ⟨or_and_zero _ w, encodeRR_fields _ w, encodeRR_fields _ w, encodeRR_fields _ w, encodeRR_fields _ w,
    encodeRR_fields _ w, encodeR1_fields _ w, encodeR1_fields _ w, encodeR1_fields _ w, encodeR1_fields _ w,
    encodeR1_fields _ w, encodeR1_fields _ w, encodeSF_fields _ w, encodeSF_fields _ w, or_and_zero _ w,
    or_and_zero _ w, encodeRel_fields _ w, encodeRel_fields _ w, encodeRI_fields _ w⟩

theorem and_or_and_not (mask : Word) : (w &&& mask) ||| (w &&& ~~~mask) = w := by
  rw [← BitVec.and_or_distrib_left, BitVec.or_not_self, BitVec.and_allOnes]

/-- The opcode fits some row, whose fixed bits and operand bits together are all its bits. -/
theorem encode_of_decode {w : Word} {i : Instr} (h : decode w = .ok i) : encode i = w := by
  obtain ⟨row, hrow, hw⟩ | hnone := row_or_no_row w
  · cases (decode_of_rowMatches hrow hw).symm.trans h
    rw [encode_instrOfFields w row hrow, ← beq_iff_eq.mp hw, and_or_and_not]
  · cases (decode_of_no_row hnone).symm.trans h

end Sys2Proof

open Sys2Proof

/-- Settles O2: only well-formed instructions are decoded, and the opcode's bits are its row's and its operands'. -/
theorem encodeOfDecodeIsTheOpcode : Obligations.EncodeOfDecodeIsTheOpcode := by
  unfold Obligations.EncodeOfDecodeIsTheOpcode
  exact fun _ _ h => ⟨wf_of_decode h, encode_of_decode h⟩

end

section
/-! SUPPORT. The states `initialize` gives (`10_state.md` R36, R38; `00_scope.md` R9), and O18 and O8. -/

namespace Sys2Proof

theorem Params.default_valid : Params.default.Valid := by decide

namespace Machine

theorem State.initial_inv {p : Params} (hp : p.Valid) : (State.initial p).Inv := by
  have htop : p.InStack p.spTop := by
    obtain ⟨-, -, -, htop, -⟩ := hp
    exact htop
  exact ⟨hp, htop, ⟨Memory.nil_wf, Memory.nil_within _⟩, Memory.nil_wf, Memory.nil_within _⟩

end Machine

end Sys2Proof

open Sys2Proof Sys2Proof.Machine

/-- Settles O18: both memories are empty and `sp` is SP_TOP; the default parameters are admissible. -/
theorem resetStatesSatisfyTheInvariant : Obligations.ResetStatesSatisfyTheInvariant := by
  unfold Obligations.ResetStatesSatisfyTheInvariant
  exact ⟨State.initial_inv Params.default_valid, fun _ => State.initial_inv⟩

/-- Settles O8: the fields of `Params.default`, and the two tiers together for EXECUTABLE. -/
theorem resetUsesTheDefaultParameters : Obligations.ResetUsesTheDefaultParameters := by
  unfold Obligations.ResetUsesTheDefaultParameters
  exact ⟨rfl, rfl, rfl, rfl, rfl, rfl, rfl, rfl, rfl, Mnemonic.mem_default_executable⟩

end

section
/-! SUPPORT. The invariant of R38 through instructions and host requests (`10_state.md` section 7), and O19 and O20. -/

namespace Sys2Proof.Machine

/-- Program memory never changes, and data memory only by two stores inside it. -/
theorem exec_keeps_inv {i : Instr} {s t : State} (hs : s.Inv) (h : exec i s = .next t) : t.Inv := by
  obtain ⟨hp, hsp, hprog, hdata⟩ := hs
  have hp' : t.params.Valid := exec_keeps_params_valid hp h
  have hsp' : t.params.InStack t.sp := exec_keeps_inStack hp hsp h
  obtain ⟨hprogMem, hparams, hcases⟩ := exec_next_cases h
  refine ⟨hp', hsp', by rwa [hprogMem, hparams], ?_⟩
  rw [hparams]
  obtain ⟨hmem, -⟩ | ⟨hmem, -⟩ | ⟨hlow, hhigh, -, w, hmem⟩ := hcases
  · rwa [hmem]
  · rwa [hmem]
  · rw [hmem]
    exact ⟨Memory.write_wf (Memory.write_wf hdata.1 _ _) _ _,
      Memory.write_within (Memory.write_within hdata.2 hlow _) hhigh _⟩

theorem step_keeps_inv {s t : State} (hs : s.Inv) (h : step s = .next t) : t.Inv := by
  obtain ⟨-, i, -, hi⟩ := step_next h
  exact exec_keeps_inv hs hi

theorem step_keeps_params {s t : State} (h : step s = .next t) : t.params = s.params := by
  obtain ⟨-, i, -, hi⟩ := step_next h
  obtain ⟨-, hparams, -⟩ := exec_next_cases hi
  exact hparams

/-- The invariant says of program memory only that it is canonical and inside its capacity. -/
theorem State.inv_with_progMem {s : State} (hs : s.Inv) {m : Memory}
    (hm : Memory.wf m ∧ Memory.within m s.params.progSize) : { s with progMem := m }.Inv := by
  obtain ⟨hp, hsp, -, hdata⟩ := hs
  exact ⟨hp, hsp, hm, hdata⟩

theorem erase_inv {s : State} (hs : s.Inv) : (erase s).Inv := by
  obtain ⟨hp, hsp, -, hdata⟩ := hs
  exact ⟨hp, hsp, ⟨Memory.nil_wf, Memory.nil_within _⟩, hdata⟩

theorem serve_loadFlatBinary_keeps {s : State} (hs : s.Inv) (bytes : List Byte) :
    (serve s (.loadFlatBinary bytes)).state.Inv ∧ (serve s (.loadFlatBinary bytes)).state.params = s.params := by
  obtain hover | hfits := Nat.lt_or_ge s.params.progSize bytes.length
  · rw [serve_loadFlatBinary_of_oversize hover]
    exact ⟨hs, rfl⟩
  · rw [serve_loadFlatBinary_of_fits hfits]
    have hprog : Memory.wf s.progMem ∧ Memory.within s.progMem s.params.progSize := by
      obtain ⟨-, -, hprog, -⟩ := hs
      exact hprog
    exact ⟨State.inv_with_progMem hs ⟨Memory.writeBytes_wf hprog.1 0 bytes,
      Memory.writeBytes_within hprog.2 bytes (by rwa [Nat.zero_add])⟩, rfl⟩

/-- One host request, whether it fails or not (R38). -/
theorem serve_keeps_inv {s : State} (hs : s.Inv) (q : HostRequest) :
    (serve s q).state.Inv ∧ (serve s q).state.params = s.params := by
  cases q with
  | reinitialise => exact ⟨State.initial_inv hs.1, rfl⟩
  | erase => exact ⟨erase_inv hs, rfl⟩
  | loadFlatBinary bytes => exact serve_loadFlatBinary_keeps hs bytes
  | loadFromVector bytes => exact serve_loadFlatBinary_keeps (erase_inv hs) bytes
  | loadHexRecords text =>
    obtain ⟨-, -, hprog, -⟩ := id hs
    exact ⟨State.inv_with_progMem hs (placeLines_keeps hprog _), rfl⟩
  | step =>
    obtain ⟨t, ht, e⟩ | ⟨f, -, e⟩ | ⟨r, -, e⟩ := serve_step_cases s
    · rw [e]; exact ⟨step_keeps_inv hs ht, step_keeps_params ht⟩
    · rw [e]; exact ⟨hs, rfl⟩
    · rw [e]; exact ⟨hs, rfl⟩

end Sys2Proof.Machine

open Sys2Proof.Machine

/-- Settles O19: the step executed an instruction, and `exec` keeps the invariant. -/
theorem everyStepKeepsTheInvariant : Obligations.EveryStepKeepsTheInvariant := by
  unfold Obligations.EveryStepKeepsTheInvariant
  exact fun _ _ => step_keeps_inv

/-- Settles O20, by induction on the requests. -/
theorem everyRequestSequenceKeepsTheInvariant : Obligations.EveryRequestSequenceKeepsTheInvariant := by
  unfold Obligations.EveryRequestSequenceKeepsTheInvariant
  intro qs
  induction qs with
  | nil => exact fun s hs => ⟨hs, rfl⟩
  | cons q qs ih =>
    intro s hs
    obtain ⟨hinv, hparams⟩ := serve_keeps_inv hs q
    obtain ⟨hinv', hparams'⟩ := ih _ hinv
    exact ⟨hinv', hparams'.trans hparams⟩

end

section
/-! SUPPORT. Everything a step can answer (`60_exceptions.md` R200, R206; log entry 3), and O14, O15 and O16. -/

namespace Sys2Proof.Machine

/-- No arm of `exec` declines. -/
theorem exec_ne_refused (i : Instr) (s : State) (r : Refusal) : exec i s ≠ .refused r := by
  cases i with
  | rcall k => rw [exec, execRcall]; cases pushWord s (returnAddress s.pc) <;> nofun
  | ret => rw [exec, execRet]; cases popWord s <;> nofun
  | reti => rw [exec, execReti]; cases popWord s <;> nofun
  | _ => nofun

/-- A step declines inadmissible parameters and nothing else. -/
theorem step_eq_refused_iff {s : State} {r : Refusal} :
    step s = .refused r ↔ ¬ s.params.Valid ∧ r = .parametersOutOfRange := by
  obtain ⟨hp, e⟩ | ⟨hp, f, -, e⟩ | ⟨hp, i, -, e⟩ := step_cases s
  · rw [e, Host.Outcome.refused.injEq, eq_comm, and_iff_right hp]
  · rw [e]; exact ⟨nofun, fun h => absurd hp h.1⟩
  · rw [e]; exact ⟨fun h => absurd h (exec_ne_refused i s r), fun h => absurd hp h.1⟩

/-- Everything fetch can answer: its three checks in order (R205). -/
theorem fetchInstr_cases (s : State) :
    (pcValid s = false ∧ fetchInstr s = .error (.invalidProgramCounter s.pc)) ∨
    (pcValid s = true ∧ decode (opcodeAt s) = .error (.unknownOpcode (opcodeAt s)) ∧
      fetchInstr s = .error (.unknownOpcode (opcodeAt s))) ∨
    (pcValid s = true ∧ ∃ i, decode (opcodeAt s) = .ok i ∧ i.mnemonic ∉ s.params.executable ∧
      fetchInstr s = .error (.unsupportedInstruction i)) ∨
    (pcValid s = true ∧ ∃ i, fetchInstr s = .ok i) := by
  by_cases hpc : pcValid s = true
  · obtain ⟨row, hrow, hw⟩ | hnone := row_or_no_row (opcodeAt s)
    · have hi := decode_of_rowMatches hrow hw
      by_cases hx : (instrOfFields (opcodeAt s) row.mnemonic).mnemonic ∈ s.params.executable
      · exact .inr (.inr (.inr ⟨hpc, _, fetchInstr_of_decode hpc hi hx⟩))
      · exact .inr (.inr (.inl ⟨hpc, _, hi, hx, fetchInstr_eq_unsupported_iff.mpr ⟨hpc, hi, hx⟩⟩))
    · exact .inr (.inl ⟨hpc, decode_of_no_row hnone, fetchInstr_of_no_row hpc hnone⟩)
  · exact .inl ⟨Bool.eq_false_iff.mpr hpc, fetchInstr_of_pc_invalid hpc⟩

end Sys2Proof.Machine

open Sys2Proof.Machine

/-- Settles O14: a failed request answers the state it started from, so it can be repeated. -/
theorem faultStatesArePermanent : Obligations.FaultStatesArePermanent := by
  unfold Obligations.FaultStatesArePermanent
  intro s f h n
  have hserve := serve_step_of_fault h
  have hstate : (serve s .step).state = s := by rw [hserve]
  rw [serveAll_replicate_fixed hstate n, hserve]
  exact ⟨rfl, rfl⟩

/-- Settles O15: fetch fails with one of the three errors, or the fetched instruction completes. -/
theorem stepEndsInSuccessOrOneOfThreeErrors : Obligations.StepEndsInSuccessOrOneOfThreeErrors := by
  unfold Obligations.StepEndsInSuccessOrOneOfThreeErrors
  intro s ⟨hp, hsp, _⟩
  obtain ⟨hpc, hf⟩ | ⟨hpc, hd, hf⟩ | ⟨hpc, i, hd, hx, hf⟩ | ⟨hpc, i, hi⟩ := fetchInstr_cases s
  · exact .inr (.inl ⟨step_of_fetch_error hp hf, hpc⟩)
  · exact .inr (.inr (.inl ⟨step_of_fetch_error hp hf, hpc, hd⟩))
  · exact .inr (.inr (.inr ⟨i, step_of_fetch_error hp hf, hpc, hd, hx⟩))
  · obtain ⟨t, ht⟩ := exec_completes hp hsp i
    exact .inl ⟨t, (step_of_fetch_ok hp hi).trans ht, hpc⟩

/-- Settles O16: the first check of a step is on the parameters, and `exec` never declines. -/
theorem stepRefusesInadmissibleParameters : Obligations.StepRefusesInadmissibleParameters := by
  unfold Obligations.StepRefusesInadmissibleParameters
  exact fun s => ⟨step_eq_refused_iff.trans (and_iff_left rfl), fun m h => nomatch (step_eq_refused_iff.mp h).2⟩

end

section
/-! SUPPORT. An opcode placed at `pc` (log entry 4), and O17. -/

namespace Sys2Proof.Machine

theorem read_placeOpcode_low {m : Memory} (hm : Memory.wf m) (a : Nat) (w : Word) :
    Memory.read (placeOpcode m a w) a = lowByte w := by
  rw [placeOpcode, Memory.read_write_other (by omega), Memory.read_write_same m hm]

theorem read_placeOpcode_high {m : Memory} (hm : Memory.wf m) (a : Nat) (w : Word) :
    Memory.read (placeOpcode m a w) (a + 1) = highByte w :=
  Memory.read_write_same _ (Memory.write_wf hm a _) (a + 1) _

/-- Fetch reads the opcode that was placed, low byte first (R51). -/
theorem opcodeAt_withFetchWord {s : State} (hm : Memory.wf s.progMem) (w : Word) :
    opcodeAt (s.withFetchWord 16 w.toNat) = w := by
  have hw : BitVec.ofNat 16 (w.toNat % 2 ^ 16) = w := by
    rw [Nat.mod_eq_of_lt w.isLt, BitVec.ofNat_toNat, BitVec.setWidth_eq]
  calc opcodeAt (s.withFetchWord 16 w.toNat)
      = wordOfBytes (Memory.read (placeOpcode s.progMem s.pc.toNat w) s.pc.toNat)
          (Memory.read (placeOpcode s.progMem s.pc.toNat w) (s.pc.toNat + 1)) := by
        simp only [opcodeAt, State.progByte, State.withFetchWord, hw]
    _ = w := by rw [read_placeOpcode_low hm, read_placeOpcode_high hm, wordOfBytes_low_high]

/-- A step runs the executable instruction whose opcode is placed at a valid `pc` (R240). -/
theorem step_withFetchWord {s : State} {i : Instr} (hp : s.params.Valid) (hm : Memory.wf s.progMem)
    (hpc : pcValid s = true) (hi : i.wf = true) (hx : i.mnemonic ∈ s.params.executable) :
    step (s.withFetchWord 16 (encode i).toNat) = exec i (s.withFetchWord 16 (encode i).toNat) := by
  have hd : decode (opcodeAt (s.withFetchWord 16 (encode i).toNat)) = .ok i := by
    rw [opcodeAt_withFetchWord hm, decode_encode hi]
  exact step_of_fetch_ok hp (fetchInstr_of_decode hpc hd hx)

end Sys2Proof.Machine

open Sys2Proof Sys2Proof.Machine

/-- Settles O17: the reset `pc` is valid, and every instruction is executable by default. -/
theorem stepAfterPlacementRunsTheInstruction : Obligations.StepAfterPlacementRunsTheInstruction := by
  unfold Obligations.StepAfterPlacementRunsTheInstruction
  exact fun i hi => step_withFetchWord Params.default_valid Memory.nil_wf (by decide) hi
    i.mnemonic.mem_default_executable

end

section
/-! SUPPORT. What a completed instruction leaves, whatever the state: the states of RCALL, RET and RETI, `pc` and the
destination register; and O22, O23, O25 and O26. -/

namespace Sys2Proof.Machine

/-! ### RCALL, RET and RETI -/

theorem exec_rcall_next {k : Offset} {s t : State} (h : exec (.rcall k) s = .next t) : t = afterRcall k s := by
  simp only [exec, execRcall] at h
  split at h
  · next u hu =>
    obtain ⟨-, -, rfl⟩ := pushWord_next hu
    cases h
    rfl
  · cases h

/-- The state a return to `w` leaves: two bytes popped, `pc` at `w`. -/
def afterReturn (w : Word) (s : State) : State := { s with sp := spInc s.params (spInc s.params s.sp), pc := w }

@[simp] theorem afterReturn_sp (w : Word) (s : State) :
    (afterReturn w s).sp = spInc s.params (spInc s.params s.sp) := rfl
@[simp] theorem afterReturn_dataByte (w : Word) (s : State) (a : Nat) :
    (afterReturn w s).dataByte a = s.dataByte a := rfl

theorem exec_ret_next {s t : State} (h : exec .ret s = .next t) : ∃ w, t = afterReturn w s := by
  simp only [exec, execRet] at h
  split at h
  · next w u hu =>
    obtain rfl := popWord_next hu
    cases h
    exact ⟨w, rfl⟩
  · cases h

theorem exec_reti_next {s t : State} (h : exec .reti s = .next t) :
    ∃ w, t = (afterReturn w s).mapSreg (putFlag · .i true) := by
  simp only [exec, execReti] at h
  split at h
  · next w u hu =>
    obtain rfl := popWord_next hu
    cases h
    exact ⟨w, rfl⟩
  · cases h

/-! ### `pc` -/

/-- Every instruction that does not branch completes and advances `pc` (R24). -/
theorem exec_of_not_branching {i : Instr} (hi : isBranching i = false) (s : State) :
    ∃ t, exec i s = .next t ∧ t.pc = s.pc + 2 := by
  cases i with
  | rjmp | rcall | ret | reti => cases hi
  | _ => exact ⟨_, rfl, rfl⟩

theorem pc_add_two_even {pc : Word} (h : pc.toNat % 2 = 0) : (pc + 2).toNat % 2 = 0 := by
  rw [pc_add_two_toNat]
  omega

/-- A relative target is a whole number of words away (R140). -/
theorem relTarget_even {pc : Word} (h : pc.toNat % 2 = 0) (k : Offset) : (relTarget pc k).toNat % 2 = 0 := by
  have := relTarget_toNat pc k
  omega

/-- Only a return can make an even `pc` odd (R38 (e)). -/
theorem exec_keeps_pc_even {i : Instr} {s t : State} (hret : i ≠ .ret) (hreti : i ≠ .reti) (hpc : s.pc.toNat % 2 = 0)
    (h : exec i s = .next t) : t.pc.toNat % 2 = 0 := by
  cases hi : isBranching i with
  | false =>
    obtain ⟨u, hu, hupc⟩ := exec_of_not_branching hi s
    cases hu.symm.trans h
    exact hupc ▸ pc_add_two_even hpc
  | true =>
    cases i with
    | rjmp k => cases h; exact relTarget_even hpc k
    | rcall k => rw [exec_rcall_next h]; exact relTarget_even hpc k
    | ret => exact absurd rfl hret
    | reti => exact absurd rfl hreti
    | _ => cases hi

/-! ### The register file -/

/-- An instruction leaves the register file as it was, or with its destination written (R22). -/
theorem exec_regs {i : Instr} {s t : State} (h : exec i s = .next t) :
    t.regs = s.regs ∨ ∃ d v, destReg i = some d ∧ t.regs = (s.writeReg d v).regs := by
  cases i with
  | nop | bset | bclr | rjmp => cases h; exact .inl rfl
  | rcall k => rw [exec_rcall_next h]; exact .inl rfl
  | ret => obtain ⟨w, rfl⟩ := exec_ret_next h; exact .inl rfl
  | reti => obtain ⟨w, rfl⟩ := exec_reti_next h; exact .inl rfl
  | _ => cases h; exact .inr ⟨_, _, rfl, rfl⟩

/-! ### Data memory and `sp` -/

/-- Every instruction but RCALL leaves data memory as it was (R66). -/
theorem exec_dataMem {i : Instr} {s t : State} (hi : ∀ k, i ≠ .rcall k) (h : exec i s = .next t) :
    t.dataMem = s.dataMem := by
  cases i with
  | rcall k => exact absurd rfl (hi k)
  | ret => obtain ⟨w, rfl⟩ := exec_ret_next h; rfl
  | reti => obtain ⟨w, rfl⟩ := exec_reti_next h; rfl
  | _ => cases h; rfl

/-- Only calls and returns move `sp`. -/
theorem exec_sp {i : Instr} {s t : State} (hi : ∀ k, i ≠ .rcall k) (hret : i ≠ .ret) (hreti : i ≠ .reti)
    (h : exec i s = .next t) : t.sp = s.sp := by
  cases i with
  | rcall k => exact absurd rfl (hi k)
  | ret => exact absurd rfl hret
  | reti => exact absurd rfl hreti
  | _ => cases h; rfl

/-- A data byte at neither of the two addresses of a call is kept by every instruction (R56). -/
theorem exec_dataByte_other {i : Instr} {s t : State} (h : exec i s = .next t) {a : Nat} (hlow : a ≠ s.sp.toNat)
    (hhigh : a ≠ (spDec s.params s.sp).toNat) : t.dataByte a = s.dataByte a := by
  by_cases hi : ∃ k, i = .rcall k
  · obtain ⟨k, rfl⟩ := hi
    rw [exec_rcall_next h]
    exact afterRcall_dataByte_other k s hlow hhigh
  · rw [State.dataByte, exec_dataMem (not_exists.mp hi) h, State.dataByte]

end Sys2Proof.Machine

open Sys2Proof Sys2Proof.Machine

/-- Settles O22: `pc` moves by whole words, except by a return. -/
theorem pcStaysEvenExceptByReturns : Obligations.PcStaysEvenExceptByReturns := by
  unfold Obligations.PcStaysEvenExceptByReturns
  exact fun _ _ _ hret hreti hpc h => ⟨exec_keeps_pc_even hret hreti hpc h, pc_add_two_even hpc⟩

/-- Settles O23: the register file is as it was, or with the destination written. -/
theorem onlyTheDestinationRegisterChanges : Obligations.OnlyTheDestinationRegisterChanges := by
  unfold Obligations.OnlyTheDestinationRegisterChanges
  intro i s t h q hq
  obtain hregs | ⟨d, v, hd, hregs⟩ := exec_regs h
  · exact State.readReg_congr hregs q
  · have hne : q ≠ d := fun e => hq (e ▸ hd)
    exact (State.readReg_congr hregs q).trans (State.readReg_writeReg_other s v hne)

/-- Settles O25: program memory by `exec_next_cases`, data memory and `sp` instruction by instruction. -/
theorem onlyRcallWritesMemory : Obligations.OnlyRcallWritesMemory := by
  unfold Obligations.OnlyRcallWritesMemory
  intro i s t h
  obtain ⟨hprog, hparams, -⟩ := exec_next_cases h
  exact ⟨fun a => by rw [State.progByte, hprog, State.progByte], hparams,
    fun hi a => by rw [State.dataByte, exec_dataMem hi h, State.dataByte],
    fun _ hlow hhigh => exec_dataByte_other h hlow hhigh, fun hi hret hreti => exec_sp hi hret hreti h⟩

/-- Settles O26: an instruction that does not branch advances `pc`, and a failed request keeps the state. -/
theorem nonBranchingInstructionsAdvanceByTwo : Obligations.NonBranchingInstructionsAdvanceByTwo := by
  unfold Obligations.NonBranchingInstructionsAdvanceByTwo
  refine ⟨fun i s hi => ?_, fun s herr => ?_⟩
  · obtain ⟨t, ht, hpc⟩ := exec_of_not_branching hi s
    exact ⟨t, ht, hpc ▸ pc_add_two_toNat s.pc⟩
  · obtain ⟨t, -, e⟩ | ⟨f, -, e⟩ | ⟨r, -, e⟩ := serve_step_cases s
    · exact absurd (congrArg Reply.error e) herr
    · rw [e]
    · rw [e]

end

section
/-! SUPPORT. SREG after an instruction (`10_state.md` R27, R28): each flag either as it was or a value that does not
depend on SREG, but for ROR's reading of C; and O24 and O27. -/

namespace Sys2Proof.Machine

/-- SREG after an instruction that finds SREG at `x` and everything else, ROR's C included, as in `s`. -/
def sregAfter (s : State) (x : Byte) : Instr → Byte
  | .nop | .ldi _ _ | .rjmp _ | .rcall _ | .ret => x
  | .reti => putFlag x .i true
  | .add d r => addFlags x (s.readReg d) (s.readReg r) (s.readReg d + s.readReg r)
  | .sub d r => subFlags x (s.readReg d) (s.readReg r) (s.readReg d - s.readReg r)
  | .inc d => incFlags x (s.readReg d + 1)
  | .dec d => decFlags x (s.readReg d - 1)
  | .and d r => logicFlags x (s.readReg d &&& s.readReg r)
  | .eor d r => logicFlags x (s.readReg d ^^^ s.readReg r)
  | .or d r => logicFlags x (s.readReg d ||| s.readReg r)
  | .com d => comFlags x (~~~s.readReg d)
  | .lsr d => shiftFlags x (s.readReg d) (s.readReg d >>> 1)
  | .asr d => shiftFlags x (s.readReg d) ((s.readReg d >>> 1) ||| (s.readReg d &&& 0x80))
  | .ror d => shiftFlags x (s.readReg d) ((s.readReg d >>> 1) ||| (if s.flag .c then 0x80 else 0))
  | .bset b => setSregBit x b.toNat
  | .bclr b => clearSregBit x b.toNat

theorem getFlag_setSregBit (x : Byte) (b : Nat) (f : Flag) :
    getFlag (setSregBit x b) f = if flagBit f = b then true else getFlag x f := by
  rw [getFlag, getLsbD_setSregBit x (flagBit_lt f), getFlag]
  by_cases h : flagBit f = b <;> simp [h]

theorem getFlag_clearSregBit (x : Byte) (b : Nat) (f : Flag) :
    getFlag (clearSregBit x b) f = if flagBit f = b then false else getFlag x f := by
  rw [getFlag, getLsbD_clearSregBit x (flagBit_lt f), getFlag]
  by_cases h : flagBit f = b <;> simp [h]

/-- A flag after an instruction: one that no SREG decides where the table has it written, the old one elsewhere. -/
theorem getFlag_sregAfter (i : Instr) (s : State) (x : Byte) (f : Flag) :
    getFlag (sregAfter s x i) f = if writesFlag i f then getFlag (sregAfter s 0 i) f else getFlag x f := by
  cases i with
  | nop | ldi | rjmp | rcall | ret => rfl
  | reti => cases f <;> simp [sregAfter, writesFlag, getFlag_putFlag]
  | add | sub => cases f <;> simp [sregAfter, writesFlag, addFlags, subFlags, getFlag_putResultFlags, getFlag_putFlag]
  | inc | dec => cases f <;> simp [sregAfter, writesFlag, incFlags, decFlags, getFlag_putResultFlags]
  | and | eor | or => cases f <;> simp [sregAfter, writesFlag, logicFlags, getFlag_putResultFlags]
  | com => cases f <;> simp [sregAfter, writesFlag, comFlags, logicFlags, getFlag_putResultFlags, getFlag_putFlag]
  | lsr | asr | ror => cases f <;> simp [sregAfter, writesFlag, shiftFlags, getFlag_putResultFlags, getFlag_putFlag]
  | bset b => by_cases h : flagBit f = b.toNat <;> simp [sregAfter, writesFlag, getFlag_setSregBit, h]
  | bclr b => by_cases h : flagBit f = b.toNat <;> simp [sregAfter, writesFlag, getFlag_clearSregBit, h]

/-- With SREG at `x`, and C as it was where ROR reads it, an instruction answers the same but for the SREG it leaves. -/
theorem exec_mapSreg_const {i : Instr} {s : State} {x : Byte} (hror : (∃ d, i = .ror d) → getFlag x .c = s.flag .c) :
    exec i (s.mapSreg fun _ => x) = mapNext (State.mapSreg fun _ => sregAfter s x i) (exec i s) := by
  cases i with
  | rcall k => exact exec_rcall_mapSreg _ k s
  | ret => exact exec_ret_mapSreg _ s
  | reti =>
    simp only [exec, execReti, popWord_mapSreg]
    cases popWord s <;> rfl
  | ror d =>
    have hc : (s.mapSreg fun _ => x).flag .c = s.flag .c := hror ⟨d, rfl⟩
    simp only [exec, execRor, hc]
    rfl
  | _ => rfl

theorem exec_sreg {i : Instr} {s t : State} (h : exec i s = .next t) : t.sreg = sregAfter s s.sreg i := by
  have hself : exec i s = mapNext (State.mapSreg fun _ => sregAfter s s.sreg i) (exec i s) :=
    exec_mapSreg_const (s := s) (x := s.sreg) fun _ => rfl
  rw [h] at hself
  exact congrArg State.sreg (Host.Outcome.next.inj hself)

theorem mapSreg_const_of_agree {s s' : State} (h : agreeButSreg s s') : s' = s.mapSreg fun _ => s'.sreg := by
  obtain ⟨hregs, hpc, hsp, hprog, hdata, hparams⟩ := h
  cases s'
  cases hregs; cases hpc; cases hsp; cases hprog; cases hdata; cases hparams
  rfl

end Sys2Proof.Machine

open Sys2Proof Sys2Proof.Machine

/-- Settles O24: the case of `getFlag_sregAfter` where the table has no write. -/
theorem onlyTheTabledFlagsChange : Obligations.OnlyTheTabledFlagsChange := by
  unfold Obligations.OnlyTheTabledFlagsChange
  intro i s t h f hf
  rw [State.flag, exec_sreg h, getFlag_sregAfter, hf]
  rfl

/-- Settles O27: the second state is the first with another SREG, which reaches no flag that the table has written. -/
theorem onlyRorReadsAFlag : Obligations.OnlyRorReadsAFlag := by
  unfold Obligations.OnlyRorReadsAFlag
  intro i s s' hagree hror
  have hexec : exec i s' = mapNext (State.mapSreg fun _ => sregAfter s s'.sreg i) (exec i s) := by
    conv_lhs => rw [mapSreg_const_of_agree hagree]
    exact exec_mapSreg_const hror
  refine ⟨fun t h => ?_, fun f h => by rw [hexec, h]; rfl⟩
  rw [h] at hexec
  refine ⟨_, hexec, ⟨rfl, rfl, rfl, rfl, rfl, rfl⟩, fun f hf => ?_⟩
  have hwritten (x : Byte) : getFlag (sregAfter s x i) f = getFlag (sregAfter s 0 i) f := by
    rw [getFlag_sregAfter, if_pos hf]
  rw [State.flag, State.flag, exec_sreg h, hwritten s.sreg]
  exact hwritten s'.sreg

end

section
/-! SUPPORT. Instructions that compute a result and its flags (`41_arithmetic.md` R120, `43_logic_shift_flag.md` R161,
R166), said once; and O46, O47 and O48. -/

namespace Sys2Proof.Machine

/-- What an instruction leaves that writes `r` to `d`, with overflow flag `v`: the result, its four flags, C, H, T and I
of the SREG `x` that the result flags are written to, and the frame. -/
structure ResultWritten (d : Reg) (s : State) (r x : Byte) (v : Bool) (t : State) : Prop where
  result : t.readReg d = r
  overflow : t.flag .v = v
  resultFlags : resultFlagsHold (t.readReg d) t
  otherFlags : ∀ f ∈ [Flag.c, .h, .t, .i], t.flag f = getFlag x f
  frame : regResultFrame d s t

/-- The result flags are the three facts of R120. -/
theorem resultFlagsHold_of_sreg {t : State} {x r : Byte} {v : Bool} (h : t.sreg = putResultFlags x r v) :
    resultFlagsHold r t := by
  simp only [resultFlagsHold, State.flag, h, getFlag_putResultFlags, getLsbD_seven, beq_zero_iff_toNat, and_self]

theorem writeResult_written (s : State) (d : Reg) (r x : Byte) (v : Bool) :
    ∃ t, writeResult s d r (putResultFlags x r v) = .next t ∧ ResultWritten d s r x v t := by
  obtain ⟨t, ht, hr, hsreg, hframe⟩ := writeResult_next s d r (putResultFlags x r v)
  refine ⟨t, ht, hr, ?_, hr ▸ resultFlagsHold_of_sreg hsreg, ?_, hframe⟩
  · rw [State.flag, hsreg, getFlag_putResultFlags]
  · simp [State.flag, hsreg, getFlag_putResultFlags]

namespace ResultWritten

variable {d : Reg} {s t : State} {r x : Byte} {v b c : Bool}

/-- C, when it was written before the result flags. -/
theorem carry (h : ResultWritten d s r (putFlag x .c c) v t) : t.flag .c = c :=
  (h.otherFlags .c (by decide)).trans (getFlag_putFlag_same x .c c)

/-- H, when it was written before C and the result flags. -/
theorem halfCarry (h : ResultWritten d s r (putFlag (putFlag x .h b) .c c) v t) : t.flag .h = b := by
  rw [h.otherFlags .h (by decide), getFlag_putFlag_other _ (by decide), getFlag_putFlag_same]

theorem kept_but_carry (h : ResultWritten d s r (putFlag s.sreg .c c) v t) : flagsKept [.h, .t, .i] s t := by
  intro f hf
  have hne : f ≠ .c := fun e => absurd (e ▸ hf) (by decide)
  rw [h.otherFlags f (List.mem_cons_of_mem _ hf), getFlag_putFlag_other _ hne, State.flag]

theorem kept_but_carries (h : ResultWritten d s r (putFlag (putFlag s.sreg .h b) .c c) v t) :
    flagsKept [.t, .i] s t := by
  intro f hf
  have hnc : f ≠ .c := fun e => absurd (e ▸ hf) (by decide)
  have hnh : f ≠ .h := fun e => absurd (e ▸ hf) (by decide)
  rw [h.otherFlags f (List.mem_cons_of_mem _ (List.mem_cons_of_mem _ hf)), getFlag_putFlag_other _ hnc,
    getFlag_putFlag_other _ hnh, State.flag]

end ResultWritten

/-- COM's C may as well be written first. -/
theorem comFlags_eq (x r : Byte) : comFlags x r = putResultFlags (putFlag x .c true) r false := by
  refine sreg_ext fun f => ?_
  cases f <;> simp [comFlags, logicFlags, getFlag_putResultFlags, getFlag_putFlag]

end Sys2Proof.Machine

open Sys2Proof Sys2Proof.Machine

/-- Settles O46: both are results with V clear and SREG's other flags as they were. -/
theorem andOrResultFlagsAndFrame : Obligations.AndOrResultFlagsAndFrame := by
  unfold Obligations.AndOrResultFlagsAndFrame
  intro d r s
  constructor
  · obtain ⟨t, ht, h⟩ := writeResult_written s d (s.readReg d &&& s.readReg r) s.sreg false
    refine ⟨t, ht, fun b _ => ?_, ?_, h.overflow, h.resultFlags, h.otherFlags, h.frame⟩
    · rw [h.result, BitVec.getLsbD_and]
    · rintro rfl
      rw [h.result, BitVec.and_self]
  · obtain ⟨t, ht, h⟩ := writeResult_written s d (s.readReg d ||| s.readReg r) s.sreg false
    refine ⟨t, ht, fun b _ => ?_, ?_, h.overflow, h.resultFlags, h.otherFlags, h.frame⟩
    · rw [h.result, BitVec.getLsbD_or]
    · rintro rfl
      rw [h.result, BitVec.or_self]

/-- Settles O47: a result with V clear; a register with itself gives 0, whose flags are those of R120. -/
theorem eorResultFlagsAndFrame : Obligations.EorResultFlagsAndFrame := by
  unfold Obligations.EorResultFlagsAndFrame
  intro d r s
  obtain ⟨t, ht, h⟩ := writeResult_written s d (s.readReg d ^^^ s.readReg r) s.sreg false
  refine ⟨t, ht, fun b _ => ?_, ?_, h.overflow, h.resultFlags, h.otherFlags, h.frame⟩
  · rw [h.result, BitVec.getLsbD_xor]
  · rintro rfl
    have hzero : t.readReg d = 0 := h.result.trans BitVec.xor_self
    obtain ⟨hn, hz, hs⟩ := hzero ▸ h.resultFlags
    have hn' : t.flag .n = false := hn
    exact ⟨hzero, hz, hn', by rw [hs, hn', h.overflow]; rfl⟩

/-- Settles O48: a result with V clear, written after C was set. -/
theorem comResultFlagsAndFrame : Obligations.ComResultFlagsAndFrame := by
  unfold Obligations.ComResultFlagsAndFrame
  intro d s
  obtain ⟨t, ht, h⟩ := writeResult_written s d (~~~s.readReg d) (putFlag s.sreg .c true) false
  rw [← comFlags_eq] at ht
  exact ⟨t, ht, by rw [h.result, BitVec.toNat_not], h.overflow, h.carry, h.resultFlags, h.kept_but_carry, h.frame⟩

end

section
/-! SUPPORT. The right shifts (`43_logic_shift_flag.md` R166 to R169): what they share, ROR's 9-bit ring; and O49, O50,
O51 and O52. -/

namespace Sys2Proof.Machine

/-- The lowest bit as a fact about the byte. -/
theorem getLsbD_zero_byte (x : Byte) : x.getLsbD 0 = decide (x.toNat % 2 = 1) := by
  rw [BitVec.getLsbD, Nat.testBit_zero]

/-- What the three right shifts leave, whatever goes into bit 7 (R166). -/
structure RightShiftWritten (d : Reg) (s : State) (r : Byte) (t : State) : Prop where
  result : t.readReg d = r
  carry : t.flag .c = decide ((s.readReg d).toNat % 2 = 1)
  overflow : t.flag .v = (t.flag .n ^^ t.flag .c)
  sign : t.flag .s = t.flag .c
  resultFlags : resultFlagsHold (t.readReg d) t
  otherFlags : flagsKept [.h, .t, .i] s t
  frame : regResultFrame d s t

theorem writeResult_shifted (s : State) (d : Reg) (r : Byte) :
    ∃ t, writeResult s d r (shiftFlags s.sreg (s.readReg d) r) = .next t ∧ RightShiftWritten d s r t := by
  obtain ⟨t, ht, h⟩ := writeResult_written s d r (putFlag s.sreg .c ((s.readReg d).getLsbD 0))
    (r.getLsbD 7 ^^ (s.readReg d).getLsbD 0)
  obtain ⟨hn, -, hs⟩ := h.resultFlags
  have hv : t.flag .v = (t.flag .n ^^ t.flag .c) := by
    rw [h.overflow, h.carry, hn, h.result, getLsbD_seven]
  refine ⟨t, ht, h.result, h.carry.trans (getLsbD_zero_byte _), hv, ?_, h.resultFlags, h.kept_but_carry, h.frame⟩
  rw [hs, hv, ← Bool.xor_assoc, Bool.xor_self, Bool.false_xor]

/-- ASR's formula is the arithmetic right shift (R168). -/
theorem asr_eq_sshiftRight (x : Byte) : (x >>> 1) ||| (x &&& 0x80) = x.sshiftRight 1 := by
  refine BitVec.eq_of_getLsbD_eq fun b hb => ?_
  interval_cases b <;> simp [BitVec.getElem_sshiftRight, BitVec.msb_eq_getLsbD_last]

/-- ROR's result: the register shifted right, with `c` at bit 7 (R169). -/
def rorResult (c : Bool) (x : Byte) : Byte := (x >>> 1) ||| (if c then 0x80 else 0)

theorem rorResult_toNat (c : Bool) (x : Byte) : (rorResult c x).toNat = x.toNat / 2 + (if c then 128 else 0) := by
  have hx := x.isLt
  cases c with
  | false => simp [rorResult, Nat.shiftRight_eq_div_pow]
  | true =>
    have hdvd : 2 ^ 7 ∣ (0x80 : Byte).toNat := by decide
    rw [rorResult, if_pos rfl, if_pos rfl, BitVec.or_comm, BitVec.toNat_or, BitVec.toNat_ushiftRight,
      Nat.shiftRight_eq_div_pow, or_eq_add_of_dvd_of_lt hdvd (by omega), Nat.add_comm]
    rfl

theorem exec_ror (d : Reg) (s : State) :
    ∃ t, exec (.ror d) s = .next t ∧ RightShiftWritten d s (rorResult (s.flag .c) (s.readReg d)) t :=
  writeResult_shifted s d _

/-! ### The 9-bit ring -/

/-- The bits of a register, and C above them. -/
def carryRing (d : Reg) (s : State) (b : Nat) : Bool := if b = 8 then s.flag .c else (s.readReg d).getLsbD b

theorem getLsbD_rorResult (c : Bool) (x : Byte) {b : Nat} (hb : b < 8) :
    (rorResult c x).getLsbD b = if b = 7 then c else x.getLsbD (b + 1) := by
  interval_cases b <;> cases c <;> simp [rorResult]

/-- One ROR moves every bit of the ring down by one place. -/
theorem exec_ror_carryRing (d : Reg) (s : State) :
    ∃ t, exec (.ror d) s = .next t ∧ ∀ b < 9, carryRing d t b = carryRing d s ((b + 1) % 9) := by
  obtain ⟨t, ht, h⟩ := exec_ror d s
  refine ⟨t, ht, fun b hb => ?_⟩
  rw [carryRing, carryRing, h.result, h.carry, ← getLsbD_zero_byte]
  by_cases h8 : b = 8
  · subst h8
    rfl
  · rw [if_neg h8, getLsbD_rorResult _ _ (by omega), Nat.mod_eq_of_lt (by omega)]
    exact if_congr (by omega) rfl rfl

theorem execAll_ror_carryRing (d : Reg) (n : Nat) (s : State) :
    ∃ t, execAll (List.replicate n (.ror d)) s = some t ∧ ∀ b < 9, carryRing d t b = carryRing d s ((b + n) % 9) := by
  induction n generalizing s with
  | zero => exact ⟨s, rfl, fun b hb => by rw [Nat.add_zero, Nat.mod_eq_of_lt hb]⟩
  | succ n ih =>
    obtain ⟨u, hu, hone⟩ := exec_ror_carryRing d s
    obtain ⟨t, ht, hrest⟩ := ih u
    refine ⟨t, by rw [List.replicate_succ, execAll, hu]; exact ht, fun b hb => ?_⟩
    rw [hrest b hb, hone _ (Nat.mod_lt _ (by decide)), Nat.mod_add_mod, Nat.add_assoc]

/-- The ring determines the register and C. -/
theorem eq_of_carryRing_eq {d : Reg} {s t : State} (h : ∀ b < 9, carryRing d t b = carryRing d s b) :
    t.readReg d = s.readReg d ∧ t.flag .c = s.flag .c := by
  refine ⟨BitVec.eq_of_getLsbD_eq fun b hb => ?_, h 8 (by decide)⟩
  have hne : b ≠ 8 := by omega
  simpa [carryRing, hne] using h b (by omega)

end Sys2Proof.Machine

open Sys2Proof Sys2Proof.Machine

/-- Settles O49: a shift whose result has bit 7 clear, so V and S are C. -/
theorem lsrHalvesUnsigned : Obligations.LsrHalvesUnsigned := by
  unfold Obligations.LsrHalvesUnsigned
  intro d s
  obtain ⟨t, ht, h⟩ := writeResult_shifted s d (s.readReg d >>> 1)
  have hhalf : (t.readReg d).toNat = (s.readReg d).toNat / 2 := by
    rw [h.result, BitVec.toNat_ushiftRight, Nat.shiftRight_eq_div_pow]
  have hn : t.flag .n = false := by
    have hlt := (s.readReg d).isLt
    rw [h.resultFlags.1, decide_eq_false_iff_not]
    omega
  exact ⟨t, ht, hhalf, h.carry, hn, by rw [h.overflow, hn, Bool.false_xor], h.sign, h.resultFlags, h.otherFlags,
    h.frame⟩

/-- Settles O50: a shift whose result is the arithmetic right shift. -/
theorem asrHalvesSigned : Obligations.AsrHalvesSigned := by
  unfold Obligations.AsrHalvesSigned
  intro d s
  obtain ⟨t, ht, h⟩ := writeResult_shifted s d ((s.readReg d >>> 1) ||| (s.readReg d &&& 0x80))
  have hhalf : (t.readReg d).toInt = (s.readReg d).toInt / 2 := by
    rw [h.result, asr_eq_sshiftRight, BitVec.toInt_sshiftRight, Int.shiftRight_eq_div_pow]
    rfl
  exact ⟨t, ht, hhalf, h.carry, h.overflow, h.sign, h.resultFlags, h.otherFlags, h.frame⟩

/-- Settles O51: a shift with the old C at bit 7 of its result. -/
theorem rorRotatesThroughCarry : Obligations.RorRotatesThroughCarry := by
  unfold Obligations.RorRotatesThroughCarry
  intro d s
  obtain ⟨t, ht, h⟩ := exec_ror d s
  have hvalue : (t.readReg d).toNat = (s.readReg d).toNat / 2 + (if s.flag .c then 128 else 0) := by
    rw [h.result, rorResult_toNat]
  have hn : t.flag .n = s.flag .c := by
    rw [h.resultFlags.1, h.result, ← getLsbD_seven, getLsbD_rorResult _ _ (by decide), if_pos rfl]
  exact ⟨t, ht, hvalue, h.carry, hn, h.overflow, h.sign, h.resultFlags, h.otherFlags, h.frame⟩

/-- Settles O52: nine moves around a ring of nine bits. -/
theorem nineRorsRestoreRegisterAndCarry : Obligations.NineRorsRestoreRegisterAndCarry := by
  unfold Obligations.NineRorsRestoreRegisterAndCarry
  intro d s
  obtain ⟨t, ht, hring⟩ := execAll_ror_carryRing d 9 s
  refine ⟨t, ht, eq_of_carryRing_eq fun b hb => ?_⟩
  rw [hring b hb, Nat.add_mod_right, Nat.mod_eq_of_lt hb]

end

section
/-! SUPPORT. BSET and BCLR (`43_logic_shift_flag.md` R170, R171): what an instruction leaves that writes SREG alone, and
O53. -/

namespace Sys2Proof.Machine

theorem writeSreg_next (s : State) (sreg : Byte) :
    ∃ t, writeSreg s sreg = .next t ∧ t.sreg = sreg ∧ allRegsKept s t ∧ t.sp = s.sp ∧ memoriesKept s t ∧
      t.pc.toNat = (s.pc.toNat + 2) % 65536 :=
  ⟨_, rfl, rfl, fun q => State.readReg_congr rfl q, rfl, ⟨fun _ => rfl, fun _ => rfl, rfl⟩, pc_add_two_toNat s.pc⟩

end Sys2Proof.Machine

open Sys2Proof Sys2Proof.Machine

/-- Settles O53: the flags of SREG with one bit set, or cleared. -/
theorem bsetAndBclrWriteOneFlag : Obligations.BsetAndBclrWriteOneFlag := by
  unfold Obligations.BsetAndBclrWriteOneFlag
  intro b s
  constructor
  · obtain ⟨t, ht, hsreg, hframe⟩ := writeSreg_next s (setSregBit s.sreg b.toNat)
    exact ⟨t, ht, fun f => by rw [State.flag, hsreg, getFlag_setSregBit, State.flag], hframe⟩
  · obtain ⟨t, ht, hsreg, hframe⟩ := writeSreg_next s (clearSregBit s.sreg b.toNat)
    exact ⟨t, ht, fun f => by rw [State.flag, hsreg, getFlag_clearSregBit, State.flag], hframe⟩

end

section
/-! SUPPORT. The flag formulas of ADD and SUB as arithmetic (`41_arithmetic.md` R121, R122): a difference is the summand
that was taken away from a sum, so SUB's borrows and overflow are ADD's carries and overflow of that sum; and O31, O32,
O33 and O36. -/

namespace Sys2Proof.Machine

/-- A byte as a two's-complement number. -/
theorem byte_toInt (x : Byte) : x.toInt = if x.toNat < 128 then (x.toNat : Int) else (x.toNat : Int) - 256 := by
  have h : 2 * x.toNat < 2 ^ 8 ↔ x.toNat < 128 := by omega
  simp only [BitVec.toInt_eq_toNat_cond, h]
  rfl

theorem byte_add_toNat (x y : Byte) : (x + y).toNat = (x.toNat + y.toNat) % 256 := BitVec.toNat_add x y

theorem byte_sub_toNat (x y : Byte) : (x - y).toNat = (x.toNat + 256 - y.toNat) % 256 := by
  have := y.isLt
  rw [BitVec.toNat_sub]
  omega

/-- ADD's carry formula at bit `b` is the carry out of bits 0 to `b` (R121). -/
theorem addCarryAt_add (x y : Byte) {b : Nat} (hb : b < 8) :
    addCarryAt b x y (x + y) = decide (2 ^ (b + 1) ≤ x.toNat % 2 ^ (b + 1) + y.toNat % 2 ^ (b + 1)) := by
  have hformula : addCarryAt b x y (x + y) = BitVec.carry (b + 1) x y false := by
    rw [addCarryAt, BitVec.getLsbD_add hb, BitVec.carry_succ]
    cases x.getLsbD b <;> cases y.getLsbD b <;> cases BitVec.carry b x y false <;> rfl
  rw [hformula, BitVec.carry]
  simp

theorem addOverflow_add (x y : Byte) :
    addOverflow x y (x + y) = decide (x.toInt + y.toInt < -128 ∨ 127 < x.toInt + y.toInt) := by
  have hx := x.isLt
  have hy := y.isLt
  simp only [addOverflow, getLsbD_seven, byte_toInt, byte_add_toNat, ← decide_not, ← Bool.decide_and, ← Bool.decide_or,
    decide_eq_decide]
  split <;> split <;> omega

/-- SUB's borrow formula is ADD's carry formula, with the difference as a summand. -/
theorem subBorrowAt_eq_addCarryAt (b : Nat) (x y r : Byte) : subBorrowAt b x y r = addCarryAt b r y x := by
  rw [subBorrowAt, addCarryAt]
  cases x.getLsbD b <;> cases y.getLsbD b <;> cases r.getLsbD b <;> rfl

theorem subBorrowAt_sub (x y : Byte) {b : Nat} (hb : b < 8) :
    subBorrowAt b x y (x - y) = decide (x.toNat % 2 ^ (b + 1) < y.toNat % 2 ^ (b + 1)) := by
  have h := addCarryAt_add (x - y) y hb
  rw [BitVec.sub_add_cancel] at h
  rw [subBorrowAt_eq_addCarryAt, h, byte_sub_toNat, decide_eq_decide]
  have hx := x.isLt
  have hy := y.isLt
  interval_cases b <;> omega

theorem subOverflow_sub (x y : Byte) :
    subOverflow x y (x - y) = decide (x.toInt - y.toInt < -128 ∨ 127 < x.toInt - y.toInt) := by
  have hx := x.isLt
  have hy := y.isLt
  simp only [subOverflow, getLsbD_seven, byte_toInt, byte_sub_toNat, ← decide_not, ← Bool.decide_and, ← Bool.decide_or,
    decide_eq_decide]
  split <;> split <;> omega

theorem exec_add (d r : Reg) (s : State) : ∃ t, exec (.add d r) s = .next t ∧
    ResultWritten d s (s.readReg d + s.readReg r)
      (putFlag (putFlag s.sreg .h (addCarryAt 3 (s.readReg d) (s.readReg r) (s.readReg d + s.readReg r))) .c
        (addCarryAt 7 (s.readReg d) (s.readReg r) (s.readReg d + s.readReg r)))
      (addOverflow (s.readReg d) (s.readReg r) (s.readReg d + s.readReg r)) t :=
  writeResult_written s d _ _ _

theorem exec_sub (d r : Reg) (s : State) : ∃ t, exec (.sub d r) s = .next t ∧
    ResultWritten d s (s.readReg d - s.readReg r)
      (putFlag (putFlag s.sreg .h (subBorrowAt 3 (s.readReg d) (s.readReg r) (s.readReg d - s.readReg r))) .c
        (subBorrowAt 7 (s.readReg d) (s.readReg r) (s.readReg d - s.readReg r)))
      (subOverflow (s.readReg d) (s.readReg r) (s.readReg d - s.readReg r)) t :=
  writeResult_written s d _ _ _

/-! ### A register with itself -/

theorem addCarryAt_self (b : Nat) (x r : Byte) : addCarryAt b x x r = x.getLsbD b := by
  rw [addCarryAt]
  cases x.getLsbD b <;> cases r.getLsbD b <;> rfl

theorem addOverflow_self (x : Byte) : addOverflow x x (x + x) = (x.getLsbD 7 ^^ x.getLsbD 6) := by
  have hdouble : (x + x).getLsbD 7 = x.getLsbD 6 := by
    rw [BitVec.getLsbD_add (by decide), BitVec.carry_succ]
    cases x.getLsbD 7 <;> cases x.getLsbD 6 <;> cases BitVec.carry 6 x x false <;> rfl
  rw [addOverflow, hdouble]
  cases x.getLsbD 7 <;> cases x.getLsbD 6 <;> rfl

theorem subBorrowAt_self (b : Nat) (x : Byte) : subBorrowAt b x x 0 = false := by
  rw [subBorrowAt, BitVec.ofNat_eq_ofNat, BitVec.getLsbD_zero]
  cases x.getLsbD b <;> rfl

theorem subOverflow_self (x : Byte) : subOverflow x x 0 = false := by
  rw [subOverflow, BitVec.ofNat_eq_ofNat, BitVec.getLsbD_zero]
  cases x.getLsbD 7 <;> rfl

end Sys2Proof.Machine

open Sys2Proof Sys2Proof.Machine

/-- Settles O31: a result written after H and C, whose formulas are the carries. -/
theorem addSumFlagsAndFrame : Obligations.AddSumFlagsAndFrame := by
  unfold Obligations.AddSumFlagsAndFrame
  intro d r s
  obtain ⟨t, ht, h⟩ := exec_add d r s
  refine ⟨t, ht, ?_, ?_, ?_, ?_, h.resultFlags, h.kept_but_carries, h.frame⟩
  · rw [h.result, byte_add_toNat]
  · have hd := (s.readReg d).isLt
    have hr := (s.readReg r).isLt
    rw [h.carry, addCarryAt_add _ _ (by decide), decide_eq_decide]
    omega
  · rw [h.halfCarry, addCarryAt_add _ _ (by decide), decide_eq_decide]
    omega
  · rw [h.overflow, addOverflow_add]

/-- Settles O32: a result written after H and C, whose formulas are the borrows. -/
theorem subDifferenceFlagsAndFrame : Obligations.SubDifferenceFlagsAndFrame := by
  unfold Obligations.SubDifferenceFlagsAndFrame
  intro d r s
  obtain ⟨t, ht, h⟩ := exec_sub d r s
  refine ⟨t, ht, ?_, ?_, ?_, ?_, h.resultFlags, h.kept_but_carries, h.frame⟩
  · rw [h.result, byte_sub_toNat]
  · have hd := (s.readReg d).isLt
    have hr := (s.readReg r).isLt
    rw [h.carry, subBorrowAt_sub _ _ (by decide), decide_eq_decide]
    omega
  · rw [h.halfCarry, subBorrowAt_sub _ _ (by decide)]
    rfl
  · rw [h.overflow, subOverflow_sub]

/-- Settles O33: what O32 says of C and Z, and of S as the sign of the difference corrected by the overflow. -/
theorem subComparesSignedAndUnsigned : Obligations.SubComparesSignedAndUnsigned := by
  unfold Obligations.SubComparesSignedAndUnsigned
  intro d r s
  obtain ⟨t, ht, hresult, hc, -, hv, ⟨hn, hz, hs⟩, -⟩ := subDifferenceFlagsAndFrame d r s
  have hd := (s.readReg d).isLt
  have hr := (s.readReg r).isLt
  refine ⟨t, ht, by rw [hc, decide_eq_true_iff], ?_, ?_⟩
  · rw [hs, hn, hv, hresult]
    simp only [byte_toInt, Bool.xor_iff_ne, ne_eq, decide_eq_decide]
    split <;> split <;> omega
  · rw [hz, hresult, decide_eq_true_iff, BitVec.toNat_eq]
    omega

/-- Settles O36: the formulas of ADD and SUB with both operands the same. -/
theorem sameRegisterArithmetic : Obligations.SameRegisterArithmetic := by
  unfold Obligations.SameRegisterArithmetic
  intro d s
  constructor
  · obtain ⟨t, ht, h⟩ := exec_add d d s
    refine ⟨t, ht, ?_, h.carry.trans (addCarryAt_self 7 _ _), h.halfCarry.trans (addCarryAt_self 3 _ _),
      h.overflow.trans (addOverflow_self _)⟩
    rw [h.result, byte_add_toNat, Nat.mul_two]
  · obtain ⟨t, ht, h⟩ := exec_sub d d s
    rw [BitVec.sub_self] at h
    have hv : t.flag .v = false := h.overflow.trans (subOverflow_self _)
    obtain ⟨hn, hz, hs⟩ := h.result ▸ h.resultFlags
    have hn' : t.flag .n = false := hn
    refine ⟨t, ht, h.result, ?_⟩
    simp only [List.forall_mem_cons, List.not_mem_nil, false_implies, implies_true, and_true]
    exact ⟨h.carry.trans (subBorrowAt_self 7 _), hz, hn', hv, by rw [hs, hn', hv]; rfl,
      h.halfCarry.trans (subBorrowAt_self 3 _)⟩

end

section
/-! SUPPORT. INC and DEC (`41_arithmetic.md` R123, R124): the sentinel results are those of a signed overflow (D10), and
O34 and O35. -/

namespace Sys2Proof.Machine

theorem beq_eq_decide_toNat (x y : Byte) : (x == y) = decide (x.toNat = y.toNat) := by
  rw [Bool.eq_iff_iff, beq_iff_eq, decide_eq_true_iff, BitVec.toNat_eq]

end Sys2Proof.Machine

open Sys2Proof Sys2Proof.Machine

/-- Settles O34: a result whose overflow flag is the test for 0x80. -/
theorem incResultFlagsAndFrame : Obligations.IncResultFlagsAndFrame := by
  unfold Obligations.IncResultFlagsAndFrame
  intro d s
  obtain ⟨t, ht, h⟩ := writeResult_written s d (s.readReg d + 1) s.sreg (s.readReg d + 1 == 0x80)
  have hvalue : (t.readReg d).toNat = ((s.readReg d).toNat + 1) % 256 := by rw [h.result, byte_add_toNat]; rfl
  have hv : t.flag .v = decide ((t.readReg d).toNat = 0x80) := by rw [h.overflow, h.result, beq_eq_decide_toNat]; rfl
  refine ⟨t, ht, hvalue, hv, ?_, h.resultFlags, h.otherFlags, h.frame⟩
  have hd := (s.readReg d).isLt
  rw [hv, hvalue, byte_toInt, decide_eq_decide]
  split <;> omega

/-- Settles O35: a result whose overflow flag is the test for 0x7F. -/
theorem decResultFlagsAndFrame : Obligations.DecResultFlagsAndFrame := by
  unfold Obligations.DecResultFlagsAndFrame
  intro d s
  obtain ⟨t, ht, h⟩ := writeResult_written s d (s.readReg d - 1) s.sreg (s.readReg d - 1 == 0x7F)
  have hvalue : (t.readReg d).toNat = ((s.readReg d).toNat + 255) % 256 := by rw [h.result, byte_sub_toNat]; rfl
  have hv : t.flag .v = decide ((t.readReg d).toNat = 0x7F) := by rw [h.overflow, h.result, beq_eq_decide_toNat]; rfl
  refine ⟨t, ht, hvalue, hv, ?_, h.resultFlags, h.otherFlags, h.frame⟩
  have hd := (s.readReg d).isLt
  rw [hv, hvalue, byte_toInt, decide_eq_decide]
  split <;> omega

end

section
/-! SUPPORT. The stack pointer at the bounds of its range (`20_memory.md` R57), stack accesses outside data memory (log
entry 2), and O43 and O44. -/

namespace Sys2Proof.Machine

theorem spInc_spMax (p : Params) : spInc p p.spMax = p.spHighClamp := if_pos le_rfl

theorem spInc_eq_spMax {p : Params} {w : Word} (h : w.toNat + 1 = p.spMax.toNat) : spInc p w = p.spMax :=
  BitVec.eq_of_toNat_eq (by rw [spInc_toNat (by omega)]; omega)

theorem exec_rcall_outside {s : State} (h : s.params.dataSize ≤ s.sp.toNat) (k : Offset) :
    exec (.rcall k) s = .fault (.dataAddressOutOfRange s.sp) := by
  rw [exec, execRcall, pushWord, push_eq, if_neg (Nat.not_lt.mpr h)]

theorem popWord_outside {s : State} (h : s.params.dataSize ≤ (spInc s.params s.sp).toNat) :
    popWord s = .error (.dataAddressOutOfRange (spInc s.params s.sp)) := by
  rw [popWord, pop_eq, if_neg (Nat.not_lt.mpr h)]

end Sys2Proof.Machine

open Sys2Proof Sys2Proof.Machine

/-- Settles O43: the moves inside the range, at its bounds, and their results in it. -/
theorem stackPointerMovesClampInRange : Obligations.StackPointerMovesClampInRange := by
  unfold Obligations.StackPointerMovesClampInRange
  intro p w hp hw
  exact ⟨fun h => h ▸ spDec_spMin p, spDec_toNat, fun h => h ▸ spInc_spMax p, spInc_toNat, spDec_inStack hp hw,
    spInc_inStack hp hw⟩

/-- Settles O44: the first push, or the first pop, has no address. -/
theorem stackAccessOutsideDataMemoryStops : Obligations.StackAccessOutsideDataMemoryStops := by
  unfold Obligations.StackAccessOutsideDataMemoryStops
  refine fun s => ⟨exec_rcall_outside, fun h => ⟨?_, ?_⟩⟩
  · rw [exec, execRet, popWord_outside h]
  · rw [exec, execReti, popWord_outside h]

end

section
/-! SUPPORT. RET and RETI (`42_control_flow.md` R143, R144), and O39 and O40. -/

namespace Sys2Proof.Machine

/-- The address on top of the stack: its high byte is popped first (R143). -/
def returnTarget (s : State) : Word :=
  wordOfBytes (s.dataByte (spInc s.params (spInc s.params s.sp)).toNat) (s.dataByte (spInc s.params s.sp).toNat)

theorem returnTarget_toNat (s : State) :
    (returnTarget s).toNat = 256 * (s.dataByte (spInc s.params s.sp).toNat).toNat +
      (s.dataByte (spInc s.params (spInc s.params s.sp)).toNat).toNat := by
  rw [returnTarget, wordOfBytes_toNat, Nat.add_comm]

/-- RET completes from every stack pointer in range (R58). -/
theorem exec_ret {s : State} (hp : s.params.Valid) (hs : s.params.InStack s.sp) :
    exec .ret s = .next (afterReturn (returnTarget s) s) := by
  rw [exec, execRet, popWord_ok hp hs]
  rfl

/-- RETI is RET with I set (R144). -/
theorem exec_reti {s : State} (hp : s.params.Valid) (hs : s.params.InStack s.sp) :
    exec .reti s = .next ((afterReturn (returnTarget s) s).mapSreg (putFlag · .i true)) := by
  rw [exec, execReti, popWord_ok hp hs]
  rfl

theorem afterReturn_memoriesKept (w : Word) (s : State) : memoriesKept s (afterReturn w s) :=
  ⟨fun _ => rfl, fun _ => rfl, rfl⟩

end Sys2Proof.Machine

open Sys2Proof Sys2Proof.Machine

/-- Settles O39: the state after a return, and the three corner cases of the clamp. -/
theorem retPopsThePc : Obligations.RetPopsThePc := by
  unfold Obligations.RetPopsThePc
  intro s ⟨hp, hs, _⟩
  refine ⟨afterReturn (returnTarget s) s, exec_ret hp hs, returnTarget_toNat s, rfl, rfl,
    fun q => State.readReg_congr rfl q, afterReturn_memoriesKept _ s, ?room, ?oneMove, ?top⟩
  case room =>
    intro h
    have h1 : (spInc s.params s.sp).toNat = s.sp.toNat + 1 := spInc_toNat (by omega)
    exact ⟨h1, by rw [afterReturn_sp, spInc_toNat (by omega), h1]⟩
  case oneMove =>
    intro hclamp h
    have h1 := spInc_eq_spMax h
    exact ⟨h1, by rw [afterReturn_sp, h1, spInc_spMax, hclamp]⟩
  case top =>
    intro hclamp h
    have h1 : spInc s.params s.sp = s.params.spMax := by rw [h, spInc_spMax, hclamp]
    exact ⟨h1, by rw [afterReturn_sp, h1, spInc_spMax, hclamp]⟩

/-- Settles O40: RETI leaves RET's state with I set. -/
theorem retiIsRetAndSetsI : Obligations.RetiIsRetAndSetsI := by
  unfold Obligations.RetiIsRetAndSetsI
  intro s ⟨hp, hs, _⟩
  refine ⟨_, _, exec_ret hp hs, exec_reti hp hs, rfl, rfl, fun q => State.readReg_congr rfl q,
    afterReturn_memoriesKept (returnTarget s) s, getFlag_putFlag_same s.sreg .i true, fun f hf => ?_⟩
  have hne : f ≠ .i := fun e => absurd (e ▸ hf) (by decide)
  exact getFlag_putFlag_other s.sreg hne true

end

section
/-! SUPPORT. Calls and the returns that close them (`42_control_flow.md` R146, `70_reset_and_hazards.md` R241), and O41
and O42. -/

namespace Sys2Proof.Machine

theorem spInc_spDec {p : Params} {w : Word} (hlow : p.spMin.toNat < w.toNat) (hhigh : w.toNat ≤ p.spMax.toNat) :
    spInc p (spDec p w) = w := by
  have hdec := spDec_toNat hlow
  refine BitVec.eq_of_toNat_eq ?_
  rw [spInc_toNat (by omega)]
  omega

/-- With room for two bytes a return's two moves of `sp` undo a call's. -/
theorem spInc_spInc_spDec_spDec {p : Params} {w : Word} (hlow : p.spMin.toNat + 2 ≤ w.toNat)
    (hhigh : w.toNat ≤ p.spMax.toNat) :
    spInc p (spDec p (spDec p w)) = spDec p w ∧ spInc p (spInc p (spDec p (spDec p w))) = w := by
  have hdec : (spDec p w).toNat = w.toNat - 1 := spDec_toNat (by omega)
  have hone : spInc p (spDec p (spDec p w)) = spDec p w := spInc_spDec (by omega) (by omega)
  exact ⟨hone, by rw [hone, spInc_spDec (by omega) hhigh]⟩

/-- `sp`, the parameters and the two stack bytes of a call make the next RET undo it (R146). -/
theorem exec_ret_after_rcall {k : Offset} {s u : State} (hs : s.Inv) (hroom : s.params.spMin.toNat + 2 ≤ s.sp.toNat)
    (hparams : u.params = s.params) (hsp : u.sp = (afterRcall k s).sp)
    (hlow : u.dataByte s.sp.toNat = (afterRcall k s).dataByte s.sp.toNat)
    (hhigh : u.dataByte (s.sp.toNat - 1) = (afterRcall k s).dataByte (s.sp.toNat - 1)) :
    exec .ret u = .next (afterReturn (returnAddress s.pc) u) ∧ (afterReturn (returnAddress s.pc) u).sp = s.sp := by
  obtain ⟨hp, hin, -, hm, -⟩ := hs
  have hdec : (spDec s.params s.sp).toNat = s.sp.toNat - 1 := spDec_toNat (by omega)
  have hne : spDec s.params s.sp ≠ s.sp := fun e => by rw [e] at hdec; omega
  obtain ⟨hone, htwo⟩ := spInc_spInc_spDec_spDec hroom hin.2
  have htarget : returnTarget u = returnAddress s.pc := by
    rw [returnTarget, hparams, hsp, afterRcall_sp, htwo, hone, hlow, afterRcall_dataByte_low hm k hne, hdec, hhigh,
      ← hdec, afterRcall_dataByte_high hm k, wordOfBytes_low_high]
  have hin' : u.params.InStack u.sp := by
    rw [hparams, hsp]
    exact spDec_inStack hp (spDec_inStack hp hin)
  exact ⟨by rw [exec_ret (hparams ▸ hp) hin', htarget], by rw [afterReturn_sp, hparams, hsp, afterRcall_sp, htwo]⟩

/-- What a balanced run of calls and returns from `s` has restored: all but `pc`, program memory and the data bytes
up to `sp`, where the pushed bytes remain. -/
structure Restored (s u : State) : Prop where
  params : u.params = s.params
  sp : u.sp = s.sp
  regs : u.regs = s.regs
  sreg : u.sreg = s.sreg
  dataAbove : ∀ a, s.sp.toNat < a → u.dataByte a = s.dataByte a

/-- RET closes a call after which everything has been restored. -/
theorem ret_restores {k : Offset} {s u : State} (hs : s.Inv) (hroom : s.params.spMin.toNat + 2 ≤ s.sp.toNat)
    (hu : Restored (afterRcall k s) u) :
    ∃ v, exec .ret u = .next v ∧ v.pc = returnAddress s.pc ∧ Restored s v := by
  have hsp : (afterRcall k s).sp.toNat = s.sp.toNat - 2 := spDec_spDec_toNat hroom
  obtain ⟨hret, hspv⟩ := exec_ret_after_rcall hs hroom hu.params hu.sp (hu.dataAbove _ (by omega))
    (hu.dataAbove _ (by omega))
  have hdec : (spDec s.params s.sp).toNat = s.sp.toNat - 1 := spDec_toNat (by omega)
  refine ⟨_, hret, rfl, hu.params, hspv, hu.regs, hu.sreg, fun a ha => ?_⟩
  rw [afterReturn_dataByte, hu.dataAbove a (by omega), afterRcall_dataByte_other k s (by omega) (by omega)]

theorem afterRcall_inv {s : State} (hs : s.Inv) (k : Offset) : (afterRcall k s).Inv := by
  obtain ⟨hp, hin, -⟩ := id hs
  exact exec_keeps_inv hs (exec_rcall hp hin k)

/-- A call takes two bytes of the room for `n + 1` calls. -/
theorem room_after_rcall (k : Offset) {s : State} {n : Nat} (h : s.params.spMin.toNat + 2 * (n + 1) ≤ s.sp.toNat) :
    s.params.spMin.toNat + 2 ≤ s.sp.toNat ∧
      (afterRcall k s).params.spMin.toNat + 2 * n ≤ (afterRcall k s).sp.toNat := by
  have hroom : s.params.spMin.toNat + 2 ≤ s.sp.toNat := by omega
  refine ⟨hroom, ?_⟩
  rw [afterRcall_params, afterRcall_sp, spDec_spDec_toNat hroom]
  omega

/-- The calls of `ks` from `s`, and then as many returns, complete in `u`. -/
def CallsThenReturns (ks : List Offset) (s u : State) : Prop :=
  ∃ t, execAll (ks.map .rcall) s = some t ∧ execAll (List.replicate ks.length .ret) t = some u

theorem CallsThenReturns.cons {ks : List Offset} {k : Offset} {s u v : State} (hs : s.Inv)
    (h : CallsThenReturns ks (afterRcall k s) u) (hv : exec .ret u = .next v) : CallsThenReturns (k :: ks) s v := by
  obtain ⟨hp, hin, -⟩ := hs
  obtain ⟨t, hcalls, hreturns⟩ := h
  refine ⟨t, by rw [List.map_cons, execAll, exec_rcall hp hin]; exact hcalls, ?_⟩
  rw [List.length_cons, List.replicate_succ', execAll_append, hreturns]
  simp [execAll, hv]

/-- One call around calls that are closed, and the return that closes it. -/
theorem callsThenReturns_cons_restores {ks : List Offset} {k : Offset} {s u : State} (hs : s.Inv)
    (hroom : s.params.spMin.toNat + 2 ≤ s.sp.toNat) (hrun : CallsThenReturns ks (afterRcall k s) u)
    (hu : Restored (afterRcall k s) u) :
    ∃ v, CallsThenReturns (k :: ks) s v ∧ v.pc = returnAddress s.pc ∧ Restored s v := by
  obtain ⟨v, hv, hpc, hrestored⟩ := ret_restores hs hroom hu
  exact ⟨v, hrun.cons hs hv, hpc, hrestored⟩

/-- As many calls as fit, and as many returns, restore everything but `pc` and the bytes they pushed (R241). -/
theorem callsThenReturns_restores (ks : List Offset) (s : State) (hs : s.Inv)
    (hroom : s.params.spMin.toNat + 2 * ks.length ≤ s.sp.toNat) : ∃ u, CallsThenReturns ks s u ∧ Restored s u := by
  induction ks generalizing s with
  | nil => exact ⟨s, ⟨s, rfl, rfl⟩, rfl, rfl, rfl, rfl, fun _ _ => rfl⟩
  | cons k ks ih =>
    obtain ⟨hroom1, hrest⟩ := room_after_rcall k hroom
    obtain ⟨u, hrun, hu⟩ := ih (afterRcall k s) (afterRcall_inv hs k) hrest
    obtain ⟨v, hv, -, hrestored⟩ := callsThenReturns_cons_restores hs hroom1 hrun hu
    exact ⟨v, hv, hrestored⟩

end Sys2Proof.Machine

open Sys2Proof Sys2Proof.Machine

/-- Settles O41: RCALL left `afterRcall`, and its two bytes are what RET pops. -/
theorem returnUndoesTheCall : Obligations.ReturnUndoesTheCall := by
  unfold Obligations.ReturnUndoesTheCall
  intro k s t u hs hroom ht hparams hsp hlow hhigh
  obtain rfl := exec_rcall_next ht
  obtain ⟨hret, hspv⟩ := exec_ret_after_rcall hs hroom hparams hsp hlow hhigh
  exact ⟨_, hret, returnAddress_toNat s.pc, hspv, fun q => State.readReg_congr rfl q, rfl⟩

/-- Settles O42: the inner calls restore the state after the first, whose return then closes it. -/
theorem nestedCallsReturn : Obligations.NestedCallsReturn := by
  unfold Obligations.NestedCallsReturn
  intro k ks s hs hroom
  obtain ⟨hroom1, hrest⟩ := room_after_rcall k hroom
  obtain ⟨u, hrun, hu⟩ := callsThenReturns_restores ks (afterRcall k s) (afterRcall_inv hs k) hrest
  obtain ⟨v, ⟨t, hcalls, hreturns⟩, hpc, hv⟩ := callsThenReturns_cons_restores hs hroom1 hrun hu
  exact ⟨t, v, hcalls, hreturns, by rw [hpc, returnAddress_toNat], hv.sp, hv.regs, hv.sreg⟩

end

section
/-! SUPPORT. The idle loop and the end of a run (`70_reset_and_hazards.md` R243; log entry 10), and O45 and O60. -/

namespace Sys2Proof.Machine

theorem decode_idle : decode 0xCFFF = .ok (.rjmp (-1)) := by decide

/-- `RJMP -1` goes to itself (R140). -/
theorem relTarget_neg_one (pc : Word) : relTarget pc (-1) = pc := by
  have hoffset : 2 * BitVec.signExtend 16 (-1 : Offset) = (-2 : Word) := by decide
  rw [relTarget, hoffset, BitVec.add_assoc]
  exact BitVec.add_zero pc

/-- RJMP is in Tier 1, so the idle loop is executed whatever EXECUTABLE is (R10). -/
theorem step_of_idleLoop {s : State} (hp : s.params.Valid) (h : idleLoop s) : step s = .next s := by
  obtain ⟨hpc, hop⟩ := h
  have hd : decode (opcodeAt s) = .ok (.rjmp (-1)) := by rw [hop, decode_idle]
  have hx : Mnemonic.rjmp ∈ s.params.executable := executable_of_tier1 hp (by decide)
  rw [step_of_fetch_ok hp (fetchInstr_of_decode hpc hd hx), exec_rjmp, relTarget_neg_one]

theorem serve_step_of_next {s t : State} (h : step s = .next t) : serve s .step = { state := t, error := none } := by
  rw [serve, h, replyOfStep]

/-! ### What each standing says of the state -/

theorem runStatus_eq_running_iff {s : State} :
    runStatus s = .running ↔ (∃ t, step s = .next t) ∧ ¬ idleLoop s := by
  constructor
  · intro h
    obtain ⟨-, hnext, hi⟩ | ⟨e, -⟩ | ⟨f, e, -⟩ | ⟨r, e, -⟩ := runStatus_cases s
    · exact ⟨hnext, hi⟩
    all_goals cases e.symm.trans h
  · rintro ⟨⟨t, ht⟩, hi⟩
    rw [runStatus, ht]
    exact if_neg hi

theorem runStatus_eq_idle_iff {s : State} (hp : s.params.Valid) : runStatus s = .idle ↔ idleLoop s := by
  constructor
  · intro h
    obtain ⟨e, -⟩ | ⟨-, -, hi⟩ | ⟨f, e, -⟩ | ⟨r, e, -⟩ := runStatus_cases s
    · cases e.symm.trans h
    · exact hi
    all_goals cases e.symm.trans h
  · intro hi
    rw [runStatus, step_of_idleLoop hp hi]
    exact if_pos hi

theorem runStatus_eq_faulted_iff {s : State} {f : Fault} : runStatus s = .faulted f ↔ step s = .fault f := by
  constructor
  · intro h
    obtain ⟨e, -⟩ | ⟨e, -⟩ | ⟨g, e, hg⟩ | ⟨r, e, -⟩ := runStatus_cases s
    · cases e.symm.trans h
    · cases e.symm.trans h
    · cases e.symm.trans h
      exact hg
    · cases e.symm.trans h
  · intro hf
    rw [runStatus, hf]

theorem not_faultState_of_idleLoop {s : State} (hp : s.params.Valid) (h : idleLoop s) : ¬ faultState s := by
  rintro ⟨f, hf⟩
  cases (step_of_idleLoop hp h).symm.trans hf

/-! ### Steps requested after the end of a run -/

/-- No step request leaves a state at which the run has ended (log entry 10). -/
theorem serve_step_fixed {s : State} (hp : s.params.Valid) (h : runStatus s ≠ .running) :
    (serve s .step).state = s := by
  obtain ⟨hr, -⟩ | ⟨-, -, hidle⟩ | ⟨f, -, hf⟩ | ⟨r, -, hr⟩ := runStatus_cases s
  · exact absurd hr h
  · rw [serve_step_of_next (step_of_idleLoop hp hidle)]
  · rw [serve_step_of_fault hf]
  · exact absurd hp (step_eq_refused_iff.mp hr).1

theorem serve_step_keeps_valid {s : State} (hp : s.params.Valid) : (serve s .step).state.params.Valid := by
  obtain ⟨t, ht, e⟩ | ⟨f, -, e⟩ | ⟨r, -, e⟩ := serve_step_cases s
  · rw [e]; exact step_keeps_params ht ▸ hp
  · rw [e]; exact hp
  · rw [e]; exact hp

theorem runFor_succ_of_running {s : State} (h : runStatus s = .running) (n : Nat) :
    runFor (n + 1) s = runFor n (serve s .step).state := by
  rw [runFor, h]

theorem runFor_of_ended {s : State} (h : runStatus s ≠ .running) (n : Nat) : runFor n s = (s, runStatus s) := by
  cases n with
  | zero => rfl
  | succ n => cases hs : runStatus s <;> simp [runFor, hs] at h ⊢

/-- The run of at most `n` steps ends where `n` requested steps do. -/
theorem runFor_eq {s : State} (hp : s.params.Valid) (n : Nat) :
    runFor n s = (serveAll s (List.replicate n .step), runStatus (serveAll s (List.replicate n .step))) := by
  induction n generalizing s with
  | zero => rfl
  | succ n ih =>
    by_cases h : runStatus s = .running
    · rw [runFor_succ_of_running h, List.replicate_succ, serveAll, ih (serve_step_keeps_valid hp)]
    · rw [runFor_of_ended h, serveAll_replicate_fixed (serve_step_fixed hp h)]

end Sys2Proof.Machine

open Sys2Proof.Machine

/-- Settles O45: the idle loop is `RJMP -1`, whose target is itself. -/
theorem idleLoopChangesNothing : Obligations.IdleLoopChangesNothing := by
  unfold Obligations.IdleLoopChangesNothing
  intro s hp h
  have hstep := step_of_idleLoop hp h
  have hstate : (serve s .step).state = s := by rw [serve_step_of_next hstep]
  exact ⟨hstep, serveAll_replicate_fixed hstate⟩

/-- Settles O60: what each standing says of the step, and `runFor_eq`. -/
theorem runsEndAtTheIdleLoopOrAFault : Obligations.RunsEndAtTheIdleLoopOrAFault := by
  unfold Obligations.RunsEndAtTheIdleLoopOrAFault
  intro s hp
  exact ⟨runStatus_eq_idle_iff hp, exists_congr fun _ => runStatus_eq_faulted_iff,
    fun ⟨hi, hf⟩ => not_faultState_of_idleLoop hp hi hf, runStatus_eq_running_iff,
    fun h => serveAll_replicate_fixed (serve_step_fixed hp h), runFor_eq hp⟩

end

section
/-! SUPPORT. The host operations that write program memory alone (`70_reset_and_hazards.md` R232, R233), the display
query (`30_encoding.md` R100), and O54, O55 and O59. -/

namespace Sys2Proof.Machine

@[simp] theorem serve_erase (s : State) : serve s .erase = { state := erase s, error := none } := rfl

theorem shownInstr_of_decode {s : State} (hpc : pcValid s = true) {i : Instr} (hi : decode (opcodeAt s) = .ok i) :
    shownInstr s = i := by
  rw [shownInstr, if_pos hpc, hi]

theorem shownInstr_of_unknown {s : State} (hpc : pcValid s = true) {e : DecodeError}
    (he : decode (opcodeAt s) = .error e) : shownInstr s = .nop := by
  rw [shownInstr, if_pos hpc, he]

theorem shownInstr_of_pc_invalid {s : State} (hpc : pcValid s = false) : shownInstr s = .nop := by
  rw [shownInstr, hpc, if_neg Bool.false_ne_true]

end Sys2Proof.Machine

open Sys2Proof Sys2Proof.Machine

/-- Settles O54: the erased state, field by field. -/
theorem eraseZeroesProgramMemoryAndPc : Obligations.EraseZeroesProgramMemoryAndPc := by
  unfold Obligations.EraseZeroesProgramMemoryAndPc
  intro s
  rw [serve_erase]
  exact ⟨rfl, erase_progByte s, erase_pc s, fun q => State.readReg_congr (erase_regs s) q, erase_sreg s, erase_sp s,
    fun _ => rfl, erase_params s⟩

/-- Settles O55: an image that fits is a run of writes from address 0. -/
theorem flatBinaryIsCopiedOrRefused : Obligations.FlatBinaryIsCopiedOrRefused := by
  unfold Obligations.FlatBinaryIsCopiedOrRefused
  refine fun s bytes hm => ⟨fun hfits => ?_, serve_loadFlatBinary_of_oversize⟩
  exact ⟨by rw [serve_loadFlatBinary_of_fits hfits], serve_loadFlatBinary_progByte_in hm hfits,
    serve_loadFlatBinary_progByte_above hfits, by rw [serve_loadFlatBinary_of_fits hfits]⟩

/-- Settles O59: the query spells the instruction a display shows. -/
theorem displayShowsTheInstructionOrNop : Obligations.DisplayShowsTheInstructionOrNop := by
  unfold Obligations.DisplayShowsTheInstructionOrNop
  exact fun s => ⟨fun hpc i hi => congrArg instrText (shownInstr_of_decode hpc hi),
    fun hpc w hw => congrArg instrText (shownInstr_of_unknown hpc hw),
    fun hpc => congrArg instrText (shownInstr_of_pc_invalid hpc)⟩

end

section
/-! SUPPORT. The lines of a hex text (`70_reset_and_hazards.md` R235; log entry 7), and O58. -/

namespace Sys2Proof.Machine

theorem textLines_crlf (cs : List Char) : textLines ('\r' :: '\n' :: cs) = [] :: textLines cs := rfl

theorem textLines_lf (cs : List Char) : textLines ('\n' :: cs) = [] :: textLines cs := rfl

/-- A character that does not end a line stands in front of the first line of what follows. -/
theorem textLines_cons {c : Char} {cs l : List Char} {ls : List (List Char)} (hlf : c ≠ '\n')
    (hcrlf : c = '\r' → cs.head? ≠ some '\n') (h : textLines cs = l :: ls) : textLines (c :: cs) = (c :: l) :: ls := by
  rw [textLines, h]
  · exact fun cs' hc hcs => hcrlf hc (hcs ▸ rfl)
  · exact hlf

theorem head?_append_ne {l tail : List Char} {a : Char} (hl : a ∉ l) (htail : l = [] → tail.head? ≠ some a) :
    (l ++ tail).head? ≠ some a := by
  cases l with
  | nil => exact htail rfl
  | cons c l => simpa using fun e : c = a => hl (e ▸ List.mem_cons_self)

/-- A line without a line feed is read whole, up to a `tail` that begins with an end of line or is none. -/
theorem textLines_append {l tail : List Char} {ls : List (List Char)} (hlf : '\n' ∉ l)
    (hcr : l.getLast? = some '\r' → tail.head? ≠ some '\n') (h : textLines tail = [] :: ls) :
    textLines (l ++ tail) = l :: ls := by
  induction l with
  | nil => exact h
  | cons c l ih =>
    obtain ⟨hc, hl⟩ := not_or.mp (mt List.mem_cons.mpr hlf)
    have hrest : textLines (l ++ tail) = l :: ls := by
      refine ih hl fun e => hcr ?_
      rw [List.getLast?_cons, e]
      rfl
    refine textLines_cons (Ne.symm hc) (fun hcr' => head?_append_ne hl fun e => hcr ?_) hrest
    rw [e, hcr']
    rfl

end Sys2Proof.Machine

open Sys2Proof.Machine

/-- Settles O58: how a text is cut, and two loads of the erased state alike. -/
theorem hexLoadIsIdempotentAfterErase : Obligations.HexLoadIsIdempotentAfterErase := by
  unfold Obligations.HexLoadIsIdempotentAfterErase
  refine ⟨fun l hl => ?_, fun l rest hl hcr => textLines_append hl (fun e => absurd e hcr) (textLines_lf rest),
    fun l rest hl => textLines_append hl (fun _ => by simp) (textLines_crlf rest), fun s text => ⟨rfl, rfl, rfl⟩⟩
  rw [← List.append_nil l, textLines_append hl (fun _ => by simp) rfl, List.append_nil]

end

section
/-! SUPPORT. What a line of a hex text parses to (`70_reset_and_hazards.md` R235; decision D20): digits, bytes, records;
what a record does to a load (R238); and O57. -/

namespace Sys2Proof.Machine

/-! ### Digits -/

theorem char_eq_iff_toNat (a c : Char) : a = c ↔ c.toNat = a.toNat := by
  rw [Char.toNat_inj, eq_comm]

/-- The digits 0 to 9, and the letters of either case from 10 on. -/
theorem hexDigit_eq_some_iff {c : Char} {x : Nat} : hexDigit c = some x ↔
    x < 10 ∧ c.toNat = 48 + x ∨ (10 ≤ x ∧ x < 16) ∧ (c.toNat = 87 + x ∨ c.toNat = 55 + x) := by
  have hchars : '0'.toNat = 48 ∧ '9'.toNat = 57 ∧ 'a'.toNat = 97 ∧ 'f'.toNat = 102 ∧
      'A'.toNat = 65 ∧ 'F'.toNat = 70 := by decide
  obtain ⟨h0, h9, ha, hf, hA, hF⟩ := hchars
  simp only [hexDigit, h0, h9, ha, hf, hA, hF]
  split
  · rw [Option.some_inj]; omega
  · split
    · rw [Option.some_inj]; omega
    · split
      · rw [Option.some_inj]; omega
      · simp only [reduceCtorEq, false_iff]; omega

theorem lowerDigits_getElem?_eq_some_iff {c : Char} {x : Nat} :
    ['0', '1', '2', '3', '4', '5', '6', '7', '8', '9', 'a', 'b', 'c', 'd', 'e', 'f'][x]? = some c ↔
      x < 10 ∧ c.toNat = 48 + x ∨ (10 ≤ x ∧ x < 16) ∧ c.toNat = 87 + x := by
  by_cases hx : x < 16
  · interval_cases x <;> simp [char_eq_iff_toNat]
  · rw [List.getElem?_eq_none (by simpa using hx)]
    simp only [reduceCtorEq, false_iff]
    omega

theorem upperDigits_getElem?_eq_some_iff {c : Char} {x : Nat} :
    ['0', '1', '2', '3', '4', '5', '6', '7', '8', '9', 'A', 'B', 'C', 'D', 'E', 'F'][x]? = some c ↔
      x < 10 ∧ c.toNat = 48 + x ∨ (10 ≤ x ∧ x < 16) ∧ c.toNat = 55 + x := by
  by_cases hx : x < 16
  · interval_cases x <;> simp [char_eq_iff_toNat]
  · rw [List.getElem?_eq_none (by simpa using hx)]
    simp only [reduceCtorEq, false_iff]
    omega

/-! ### Bytes -/

/-- Two characters spell a byte, high digit first. -/
def SpellsByte (c c' : Char) (v : Byte) : Prop :=
  ∃ x y, hexDigit c = some x ∧ hexDigit c' = some y ∧ v = BitVec.ofNat 8 (16 * x + y)

theorem hexBytes_cons_cons {a b : Char} {cs : List Char} {v : Byte} {bs : List Byte} :
    hexBytes (a :: b :: cs) = some (v :: bs) ↔ SpellsByte a b v ∧ hexBytes cs = some bs := by
  rw [hexBytes, SpellsByte]
  constructor
  · intro h
    split at h
    · next x y bs' hx hy hbs =>
      cases h
      exact ⟨⟨x, y, hx, hy, rfl⟩, hbs⟩
    · cases h
  · rintro ⟨⟨x, y, hx, hy, rfl⟩, hbs⟩
    rw [hx, hy, hbs]

theorem hexBytes_ne_nil (a b : Char) (cs : List Char) : hexBytes (a :: b :: cs) ≠ some [] := by
  rw [hexBytes]
  split <;> nofun

/-- The characters spell the bytes one after the other. -/
def SpellsBytes (cs : List Char) (bs : List Byte) : Prop :=
  cs.length = 2 * bs.length ∧ ∀ j < bs.length, ∃ c c' x y, cs[2 * j]? = some c ∧ cs[2 * j + 1]? = some c' ∧
    hexDigit c = some x ∧ hexDigit c' = some y ∧ bs[j]? = some (BitVec.ofNat 8 (16 * x + y))

theorem spellsBytes_cons_cons {a b : Char} {cs : List Char} {v : Byte} {bs : List Byte} :
    SpellsBytes (a :: b :: cs) (v :: bs) ↔ SpellsByte a b v ∧ SpellsBytes cs bs := by
  have hlength : (a :: b :: cs).length = 2 * (v :: bs).length ↔ cs.length = 2 * bs.length := by
    simp only [List.length_cons]
    omega
  simp only [SpellsBytes, hlength]
  simp only [List.length_cons, Nat.forall_lt_succ_left, Nat.mul_succ, Nat.mul_zero, List.getElem?_cons_zero,
    List.getElem?_cons_succ, Option.some_inj, SpellsByte, exists_and_left, exists_eq_left', and_left_comm]

theorem hexBytes_eq_some_iff (cs : List Char) (bs : List Byte) : hexBytes cs = some bs ↔ SpellsBytes cs bs := by
  induction cs using List.twoStepInduction generalizing bs with
  | nil => cases bs <;> simp [hexBytes, SpellsBytes]
  | singleton c =>
    have hodd : [c].length ≠ 2 * bs.length := by rw [List.length_singleton]; omega
    exact ⟨nofun, fun h => absurd h.1 hodd⟩
  | cons_cons a b cs ih _ =>
    cases bs with
    | nil => exact ⟨fun h => absurd h (hexBytes_ne_nil a b cs), fun h => absurd h.1 (Nat.succ_ne_zero _)⟩
    | cons v bs => rw [hexBytes_cons_cons, spellsBytes_cons_cons, ih]

/-! ### Records -/

theorem stripMarker_of_no_marker {cs : List Char} (h : cs.head? ≠ some ':') : stripMarker cs = cs := by
  rw [stripMarker]
  rintro cs' rfl
  exact h rfl

/-- `n + 1` bytes are `n` bytes and a checksum. -/
theorem eq_take_append_of_length {bs : List Byte} {n : Nat} (h : bs.length = n + 1) :
    ∃ checksum, bs = bs.take n ++ [checksum] := by
  obtain ⟨checksum, hlast⟩ : ∃ c, bs.drop n = [c] := List.length_eq_one_iff.mp (by rw [List.length_drop]; omega)
  exact ⟨checksum, by rw [← hlast, List.take_append_drop]⟩

/-- A record in the bytes of a line (R235). -/
theorem parseRecord_eq_ok_iff {l : List Char} {r : HexRecord} : parseRecord l = .ok r ↔
    ∃ (n hi lo : Byte) (checksum : Byte), r.data.length = n.toNat ∧ r.addr = 256 * hi.toNat + lo.toNat ∧
      hexBytes (stripMarker l) = some ([n, hi, lo, r.recType] ++ r.data ++ [checksum]) := by
  constructor
  · intro h
    unfold parseRecord at h
    split at h
    · next n hi lo ty rest hbytes =>
      split at h
      · next hlength =>
        cases h
        obtain ⟨checksum, hrest⟩ := eq_take_append_of_length hlength
        refine ⟨n, hi, lo, checksum, by rw [List.length_take]; omega, by rw [Nat.mul_comm], ?_⟩
        rw [hbytes, List.append_assoc, ← hrest]
        rfl
      · cases h
    · cases h
  · rintro ⟨n, hi, lo, checksum, hlength, haddr, hbytes⟩
    have htake : (r.data ++ [checksum]).take n.toNat = r.data := List.take_left' hlength
    rw [List.append_assoc] at hbytes
    simp only [parseRecord, hbytes, List.cons_append, List.nil_append, List.length_append, List.length_singleton,
      hlength, if_true, htake]
    rw [Nat.mul_comm, ← haddr]

theorem parseRecord_cases (l : List Char) :
    (∃ r, parseRecord l = .ok r) ∨ parseRecord l = .error .malformedRecord := by
  unfold parseRecord
  split
  · split
    · exact .inl ⟨_, rfl⟩
    · exact .inr rfl
  · exact .inr rfl

/-! ### What a record does to the load (R238) -/

section

variable {size : Nat} {m : Memory} {l : List Char} {ls : List (List Char)} {r : HexRecord}

theorem placeLines_malformed {e : LoadError} (h : parseRecord l = .error e) :
    placeLines size m (l :: ls) = placeLines size m ls := by
  rw [placeLines, h]

theorem placeLines_data (h : parseRecord l = .ok r) (hty : r.recType = 0) (hfits : r.addr + r.data.length ≤ size) :
    placeLines size m (l :: ls) = placeLines size (Memory.writeBytes m r.addr r.data) ls := by
  simp only [placeLines, h]
  rw [if_pos hty, if_pos hfits]

theorem placeLines_data_outside (h : parseRecord l = .ok r) (hty : r.recType = 0)
    (hover : size < r.addr + r.data.length) : placeLines size m (l :: ls) = (m, some .addressOutOfRange) := by
  simp only [placeLines, h]
  rw [if_pos hty, if_neg (Nat.not_le.mpr hover)]

theorem placeLines_end (h : parseRecord l = .ok r) (hty : r.recType = 1) :
    placeLines size m (l :: ls) = (m, none) := by
  have hne : r.recType ≠ 0 := by rw [hty]; decide
  simp only [placeLines, h]
  rw [if_neg hne, if_pos hty]

theorem placeLines_unsupported (h : parseRecord l = .ok r) (hdata : r.recType ≠ 0) (hend : r.recType ≠ 1) :
    placeLines size m (l :: ls) = (m, some .unsupportedRecordType) := by
  simp only [placeLines, h]
  rw [if_neg hdata, if_neg hend]

end

end Sys2Proof.Machine

open Sys2Proof.Machine

/-- Settles O57: digits, bytes and records as above, and one equation of `placeLines` for each kind of line. -/
theorem hexLinesAreSkippedPlacedOrEndTheLoad : Obligations.HexLinesAreSkippedPlacedOrEndTheLoad := by
  unfold Obligations.HexLinesAreSkippedPlacedOrEndTheLoad
  refine ⟨fun c x => ?_, hexBytes_eq_some_iff, fun _ => rfl, fun _ => stripMarker_of_no_marker,
    fun _ _ => parseRecord_eq_ok_iff, parseRecord_cases, fun size m l ls hm => ⟨rfl, placeLines_malformed, fun r hr =>
      ⟨fun hty hfits => ?_, placeLines_data_outside hr, placeLines_end hr, placeLines_unsupported hr⟩⟩⟩
  · rw [hexDigit_eq_some_iff, lowerDigits_getElem?_eq_some_iff, upperDigits_getElem?_eq_some_iff]
    tauto
  · exact ⟨_, placeLines_data hr hty hfits, Memory.writeBytes_wf hm _ _,
      fun j hj => Memory.read_writeBytes_at m hm r.addr j r.data hj,
      fun a ha => Memory.read_writeBytes_other m r.addr a r.data ha⟩

end
